-- ==== Sys2Proof/Word.lean ====
section
/-! DEFINITION. The widths of 00_scope.md rule R9 and 30_encoding.md rule R81. Every value is unsigned (rule R13). -/

namespace Sys2Proof

/-- A memory cell or a general register: 8 bits. -/
abbrev Byte := BitVec 8

/-- The program counter, the index register, a return address or an instruction word: 16 bits. -/
abbrev Word := BitVec 16

/-- The address field NNN of rule R81: 12 bits. -/
abbrev Addr12 := BitVec 12

/-- A register index, X or Y of rule R81: no index outside 0..15 can be named (rule R18). -/
abbrev Reg := Fin 16

/-- The sprite height N of rule R83: an unsigned count of 0 to 15 rows. -/
abbrev Height := Fin 16

end Sys2Proof
end

