-- ==== Sys2Proof/Config.lean ====
section
/-! DEFINITION. The parameters of 00_scope.md rule R10, every one a field of `Config`: plain data that `State` carries and no
step writes (log 1). Their defaults are `Machine.constructionConfig`. What the spec leaves OPEN has no value here: the constants
without a body at the end (log 2, 3, 20). -/

namespace Sys2Proof

/-- The parameters an instance of the engine is constructed with (rules R10, R212, R213). -/
structure Config where
  /-- MEM_SIZE: the number of memory cells, so that the highest address (0xFFF at the default) is one below it. -/
  memSize : Nat
  /-- PROGRAM_BASE: where the image is loaded and the first instruction is fetched. -/
  programBase : Word
  /-- MAX_IMAGE: the longest program image (rule R231). -/
  maxImage : Nat
  /-- SCREEN_W: the columns of the frame buffer (rule R28). -/
  screenW : Nat
  /-- SCREEN_H: the rows of the frame buffer (rule R28). -/
  screenH : Nat
  /-- LEGACY_SHIFT (rule R12): true reads the shift source from Vy, false from Vx. -/
  legacyShift : Bool
  /-- HAS_ADD_TO_INDEX (rule R11): whether the word FX1E is an instruction. -/
  hasAddToIndex : Bool
  /-- STRICT_5_9_LOW_NIBBLE (rule R88): whether 5XYN and 9XYN with N ≠ 0 are illegal. -/
  strictLowNibble : Bool
  /-- STACK_CAP (rule R26): the depth at which a Call is fatal, if there is one. -/
  stackCap : Option Nat
  /-- CLS_SETS_CHANGED (rule R110): whether ClearScreen requests a render. -/
  clsSetsChanged : Bool
  /-- FONT_BASE (rule R51): the address of the first glyph byte. -/
  fontBase : Word
  /-- FONT_GLYPHS (rule R52): 16 glyphs of five bytes. -/
  fontGlyphs : Vector Byte 80
  /-- CYCLE_HZ (rule R241): timing only, no rule of the model reads it. -/
  cycleHz : Nat
  /-- TIMER_HZ (rule R210): timing only, no rule of the model reads it. -/
  timerHz : Nat
  deriving DecidableEq, Repr

/-- The LEGACY_SHIFT of the instance that `State.reset` is: OPEN in rule R10, so a free value (log 2). -/
opaque Config.openLegacyShift : Bool

/-- The FONT_GLYPHS of the instance that `State.reset` is: OPEN in rule R10, so a free value (log 3). -/
opaque Config.openFontGlyphs : Vector Byte 80

/-- The TIMER_HZ of the instance that `State.reset` is: OPEN in rule R10, so a free value (log 20). -/
opaque Config.openTimerHz : Nat

end Sys2Proof
end

