-- ==== Sys2Proof/Machine/Params.lean ====
section
/-! DEFINITION. The construction arguments of the instance that `State.reset` is, and the content of memory before the program
image is loaded. -/

namespace Sys2Proof.Machine

/-- The parameters of rule R10 at their defaults: the spec's defaults where it gives one (log 4, 5), the free values of
Config.lean where it says OPEN (log 2, 3, 20). -/
def constructionConfig : Config where
  memSize := 4096
  programBase := 0x200
  maxImage := 4096 - 0x200
  screenW := 64
  screenH := 32
  legacyShift := Config.openLegacyShift
  hasAddToIndex := false
  strictLowNibble := false
  stackCap := none
  clsSetsChanged := true
  fontBase := 0x050
  fontGlyphs := Config.openFontGlyphs
  cycleHz := 700
  timerHz := Config.openTimerHz

/-- The parameters under which every row of spec/opcode_table.json is an instruction: HAS_ADD_TO_INDEX true (rule R11), the
rest as constructed. Used by `decodeTableWord` alone (log 4). -/
def tableConfig : Config := { constructionConfig with hasAddToIndex := true }

/-- What the cell at `a` holds before the image is loaded (rule R52): the font bytes at FONT_BASE..FONT_BASE+79, zero
elsewhere. It is also what a cell that `State.mem` does not list reads as (log 18). -/
def resetByte (cfg : Config) (a : Nat) : Byte :=
  if h : cfg.fontBase.toNat ≤ a ∧ a < cfg.fontBase.toNat + 80 then
    cfg.fontGlyphs[a - cfg.fontBase.toNat]
  else 0

end Sys2Proof.Machine
end

