-- ==== Sys2Proof/Syntax.lean ====
section
/-! DEFINITION. The instructions: one constructor per row of spec/opcode_table.json, under the names of 00_scope.md rule R17. -/

namespace Sys2Proof

/-- The closed union of rule R18. `x` and `y` are register indices, `n` a height, `nn` an immediate byte, `nnn` a 12-bit
address (rule R15). -/
inductive Instr where
  /-- ClearScreen, 00E0 (rule R110). -/
  | clearScreen
  /-- Return, 00EE (rule R120). -/
  | ret
  /-- Jump, 1NNN (rule R121). -/
  | jump (nnn : Addr12)
  /-- Call, 2NNN (rule R122). -/
  | call (nnn : Addr12)
  /-- SkipEqualX, 3XNN (rule R123). -/
  | skipEqualX (x : Reg) (nn : Byte)
  /-- SkipNotEqualX, 4XNN (rule R124). -/
  | skipNotEqualX (x : Reg) (nn : Byte)
  /-- SkipEqualXY, 5XYN (rule R125). -/
  | skipEqualXY (x y : Reg)
  /-- SetRegister, 6XNN (rule R141). -/
  | setRegister (x : Reg) (nn : Byte)
  /-- AddValueToRegister, 7XNN (rule R142). -/
  | addValueToRegister (x : Reg) (nn : Byte)
  /-- Load, 8XY0 (rule R143). -/
  | load (x y : Reg)
  /-- OR, 8XY1 (rule R144). -/
  | or (x y : Reg)
  /-- AND, 8XY2 (rule R145). -/
  | and (x y : Reg)
  /-- XOR, 8XY3 (rule R146). -/
  | xor (x y : Reg)
  /-- ADD, 8XY4 (rule R147). -/
  | add (x y : Reg)
  /-- SUB, 8XY5 (rule R148). -/
  | sub (x y : Reg)
  /-- ShiftRight, 8XY6 (rule R152). -/
  | shiftRight (x y : Reg)
  /-- SUBN, 8XY7 (rule R149). -/
  | subn (x y : Reg)
  /-- ShiftLeft, 8XYE (rule R153). -/
  | shiftLeft (x y : Reg)
  /-- SkipNotEqualXY, 9XYN (rule R126). -/
  | skipNotEqualXY (x y : Reg)
  /-- SetIndexRegister, ANNN (rule R170). -/
  | setIndexRegister (nnn : Addr12)
  /-- Draw, DXYN (rule R111). -/
  | draw (x y : Reg) (n : Height)
  /-- BinaryCodedDecimal, FX33 (rule R172). -/
  | binaryCodedDecimal (x : Reg)
  /-- StoreRegisters, FX55 (rule R173). -/
  | storeRegisters (x : Reg)
  /-- ReadIntoRegisters, FX65 (rule R174). -/
  | readIntoRegisters (x : Reg)
  /-- AddToIndex, FX1E, under HAS_ADD_TO_INDEX only (rule R171). -/
  | addToIndex (x : Reg)
  deriving DecidableEq, Repr

end Sys2Proof
end

