-- ==== Sys2Proof/WellFormed.lean ====
section
/-! DEFINITION. Which instructions an instance has. The operand types already bound every field (rule R18), so the one check
left is that AddToIndex "exists only when the parameter HAS_ADD_TO_INDEX is true" (rule R6). -/

namespace Sys2Proof

/-- `i` is an instruction of an instance with parameters `cfg` (rules R6, R11). -/
def Instr.wellFormed (cfg : Config) : Instr → Bool
  | .addToIndex _ => cfg.hasAddToIndex
  | .clearScreen | .ret | .jump _ | .call _ | .skipEqualX _ _ | .skipNotEqualX _ _ | .skipEqualXY _ _ => true
  | .setRegister _ _ | .addValueToRegister _ _ | .load _ _ | .or _ _ | .and _ _ | .xor _ _ => true
  | .add _ _ | .sub _ _ | .shiftRight _ _ | .subn _ _ | .shiftLeft _ _ | .skipNotEqualXY _ _ => true
  | .setIndexRegister _ | .draw _ _ _ | .binaryCodedDecimal _ | .storeRegisters _ | .readIntoRegisters _ => true

end Sys2Proof
end

