-- ==== Sys2Proof/Decode.lean ====
section
/-! DEFINITION. The decode function of 30_encoding.md rule R86, total on every 16-bit word, and the canonical encoder of
rule R90. -/

namespace Sys2Proof

/-! ### Fields of a word (rule R81) -/

/-- The family nibble `w[15:12]`. -/
def opOf (w : Word) : BitVec 4 := w.extractLsb' 12 4

/-- The register index X, `w[11:8]`. -/
def xOf (w : Word) : Reg := (w.extractLsb' 8 4).toFin

/-- The register index Y, `w[7:4]`. -/
def yOf (w : Word) : Reg := (w.extractLsb' 4 4).toFin

/-- The nibble N, `w[3:0]`. -/
def nOf (w : Word) : BitVec 4 := w.extractLsb' 0 4

/-- The byte NN, `w[7:0]`. -/
def nnOf (w : Word) : Byte := w.extractLsb' 0 8

/-- The address NNN, `w[11:0]`. -/
def nnnOf (w : Word) : Addr12 := w.extractLsb' 0 12

/-- The word formed from two fetched bytes, the first one high (rules R55, R57, R80). -/
def wordOfBytes (byte0 byte1 : Byte) : Word := byte0 ++ byte1

/-- The byte a word stores at the lower address. -/
def highByte (w : Word) : Byte := w.extractLsb' 8 8

/-- The byte a word stores at the higher address. -/
def lowByte (w : Word) : Byte := w.extractLsb' 0 8

/-! ### Decode -/

/-- Why a word is no instruction (rule R87). -/
inductive DecodeError where
  /-- DECODE_0NNN: 0x0000..0x0FFF other than 0x00E0 and 0x00EE. -/
  | zeroNNN
  /-- DECODE_UNMAPPED: any other word without an instruction. -/
  | unmapped
  deriving DecidableEq, Repr

/-- What decoding a word gives: an instruction, or the name of the reason it is illegal. -/
inductive Decoded where
  | ok (i : Instr)
  | illegal (e : DecodeError)
  deriving DecidableEq, Repr

/-- Family 0: only 0x00E0 and 0x00EE are instructions (rule R86). -/
def decodeZero (w : Word) : Decoded :=
  if w = 0x00E0 then .ok .clearScreen
  else if w = 0x00EE then .ok .ret
  else .illegal .zeroNNN

/-- Family 8: the function nibble selects the operation (rule R85). -/
def decodeEight (w : Word) : Decoded :=
  match (nOf w).toNat with
  | 0x0 => .ok (.load (xOf w) (yOf w))
  | 0x1 => .ok (.or (xOf w) (yOf w))
  | 0x2 => .ok (.and (xOf w) (yOf w))
  | 0x3 => .ok (.xor (xOf w) (yOf w))
  | 0x4 => .ok (.add (xOf w) (yOf w))
  | 0x5 => .ok (.sub (xOf w) (yOf w))
  | 0x6 => .ok (.shiftRight (xOf w) (yOf w))
  | 0x7 => .ok (.subn (xOf w) (yOf w))
  | 0xE => .ok (.shiftLeft (xOf w) (yOf w))
  | _ => .illegal .unmapped

/-- Family F: the function byte selects the operation, FX1E only under HAS_ADD_TO_INDEX (rules R11, R85). -/
def decodeF (cfg : Config) (w : Word) : Decoded :=
  if nnOf w = 0x33 then .ok (.binaryCodedDecimal (xOf w))
  else if nnOf w = 0x55 then .ok (.storeRegisters (xOf w))
  else if nnOf w = 0x65 then .ok (.readIntoRegisters (xOf w))
  else if nnOf w = 0x1E ∧ cfg.hasAddToIndex = true then .ok (.addToIndex (xOf w))
  else .illegal .unmapped

/-- Families 5 and 9: the low nibble is ignored unless STRICT_5_9_LOW_NIBBLE (rule R88). -/
def decodeXY (cfg : Config) (w : Word) (i : Instr) : Decoded :=
  if nOf w ≠ 0 ∧ cfg.strictLowNibble = true then .illegal .unmapped else .ok i

/-- `decode(w)` of rule R86. The last arm is the families B, C and E. -/
def decode (cfg : Config) (w : Word) : Decoded :=
  match (opOf w).toNat with
  | 0x0 => decodeZero w
  | 0x1 => .ok (.jump (nnnOf w))
  | 0x2 => .ok (.call (nnnOf w))
  | 0x3 => .ok (.skipEqualX (xOf w) (nnOf w))
  | 0x4 => .ok (.skipNotEqualX (xOf w) (nnOf w))
  | 0x5 => decodeXY cfg w (.skipEqualXY (xOf w) (yOf w))
  | 0x6 => .ok (.setRegister (xOf w) (nnOf w))
  | 0x7 => .ok (.addValueToRegister (xOf w) (nnOf w))
  | 0x8 => decodeEight w
  | 0x9 => decodeXY cfg w (.skipNotEqualXY (xOf w) (yOf w))
  | 0xA => .ok (.setIndexRegister (nnnOf w))
  | 0xD => .ok (.draw (xOf w) (yOf w) (nOf w).toFin)
  | 0xF => decodeF cfg w
  | _ => .illegal .unmapped

/-- Decoding two fetched bytes, in address order. -/
def decodeBytes (cfg : Config) (byte0 byte1 : Byte) : Decoded := decode cfg (wordOfBytes byte0 byte1)

/-- The instruction decoded from a row of spec/opcode_table.json whose bits are `w`: the word is laid out as memory holds it,
high byte first, and decoded under the parameters that admit every row (log 4). -/
def decodeTableWord (nbits w : Nat) : Option Instr :=
  let word : Word := BitVec.ofNat 16 (w % 2 ^ nbits)
  match decodeBytes Machine.tableConfig (highByte word) (lowByte word) with
  | .ok i => some i
  | .illegal _ => none

/-! ### Encode (rule R90), by the formats of rule R82 -/

/-- Format ADDR: op, NNN. -/
def encADDR (op : BitVec 4) (nnn : Addr12) : Word := op ++ nnn

/-- Formats XNN and XFN: op, X, and the immediate or function byte. -/
def encXNN (op : BitVec 4) (x : Reg) (nn : Byte) : Word := op ++ (BitVec.ofFin x : BitVec 4) ++ nn

/-- Formats XY and XYN: op, X, Y, and the function nibble or height. -/
def encXYN (op : BitVec 4) (x y : Reg) (n : BitVec 4) : Word :=
  op ++ (BitVec.ofFin x : BitVec 4) ++ (BitVec.ofFin y : BitVec 4) ++ n

/-- The canonical word of each instruction (rule R90). -/
def encode : Instr → Word
  | .clearScreen => 0x00E0
  | .ret => 0x00EE
  | .jump nnn => encADDR 0x1 nnn
  | .call nnn => encADDR 0x2 nnn
  | .skipEqualX x nn => encXNN 0x3 x nn
  | .skipNotEqualX x nn => encXNN 0x4 x nn
  | .skipEqualXY x y => encXYN 0x5 x y 0x0
  | .setRegister x nn => encXNN 0x6 x nn
  | .addValueToRegister x nn => encXNN 0x7 x nn
  | .load x y => encXYN 0x8 x y 0x0
  | .or x y => encXYN 0x8 x y 0x1
  | .and x y => encXYN 0x8 x y 0x2
  | .xor x y => encXYN 0x8 x y 0x3
  | .add x y => encXYN 0x8 x y 0x4
  | .sub x y => encXYN 0x8 x y 0x5
  | .shiftRight x y => encXYN 0x8 x y 0x6
  | .subn x y => encXYN 0x8 x y 0x7
  | .shiftLeft x y => encXYN 0x8 x y 0xE
  | .skipNotEqualXY x y => encXYN 0x9 x y 0x0
  | .setIndexRegister nnn => encADDR 0xA nnn
  | .draw x y n => encXYN 0xD x y (BitVec.ofFin n)
  | .binaryCodedDecimal x => encXNN 0xF x 0x33
  | .storeRegisters x => encXNN 0xF x 0x55
  | .readIntoRegisters x => encXNN 0xF x 0x65
  | .addToIndex x => encXNN 0xF x 0x1E

/-- The `mask` and `match` of an instruction's row in spec/opcode_table.json. -/
def tableRow : Instr → Word × Word
  | .clearScreen => (0xFFFF, 0x00E0)
  | .ret => (0xFFFF, 0x00EE)
  | .jump _ => (0xF000, 0x1000)
  | .call _ => (0xF000, 0x2000)
  | .skipEqualX _ _ => (0xF000, 0x3000)
  | .skipNotEqualX _ _ => (0xF000, 0x4000)
  | .skipEqualXY _ _ => (0xF000, 0x5000)
  | .setRegister _ _ => (0xF000, 0x6000)
  | .addValueToRegister _ _ => (0xF000, 0x7000)
  | .load _ _ => (0xF00F, 0x8000)
  | .or _ _ => (0xF00F, 0x8001)
  | .and _ _ => (0xF00F, 0x8002)
  | .xor _ _ => (0xF00F, 0x8003)
  | .add _ _ => (0xF00F, 0x8004)
  | .sub _ _ => (0xF00F, 0x8005)
  | .shiftRight _ _ => (0xF00F, 0x8006)
  | .subn _ _ => (0xF00F, 0x8007)
  | .shiftLeft _ _ => (0xF00F, 0x800E)
  | .skipNotEqualXY _ _ => (0xF000, 0x9000)
  | .setIndexRegister _ => (0xF000, 0xA000)
  | .draw _ _ _ => (0xF000, 0xD000)
  | .binaryCodedDecimal _ => (0xF0FF, 0xF033)
  | .storeRegisters _ => (0xF0FF, 0xF055)
  | .readIntoRegisters _ => (0xF0FF, 0xF065)
  | .addToIndex _ => (0xF0FF, 0xF01E)

end Sys2Proof
end

