-- ==== Sys2Proof/Machine/State.lean ====
section
/-! DEFINITION. The machine state (10_state.md), the reasons a step stops, and the state after reset (rule R33). -/

namespace Sys2Proof.Machine

/-- The frame buffer of rule R28, as the lit pixels by rising column x and, in a column, rising row y (log 25). How many
columns and rows there are is SCREEN_W and SCREEN_H of the parameters. -/
abbrev FrameBuffer := List (Nat × Nat)

/-- The error a render may return. The spec gives it no content, so a number tells one from another (log 9). -/
structure RenderError where
  id : Nat
  deriving DecidableEq, Repr

/-- A fatal condition: the cause and the info of rule R201. `addr` is the fetch address, `opcode` the word, `ea` the first
effective address that does not exist. -/
inductive Fatal where
  | decode0NNN (addr opcode : Word)
  | decodeUnmapped (addr opcode : Word)
  | stackUnderflow (addr opcode : Word)
  | stackOverflow (addr opcode : Word)
  | memOutOfRange (addr opcode : Word) (ea : Nat)
  | fetchOutOfRange (addr : Word)
  | imageTooLarge (length : Nat)
  | renderFailed (addr opcode : Word) (error : RenderError)
  deriving DecidableEq, Repr

/-- The code of a cause in the table of rule R201. -/
def Fatal.code : Fatal → Nat
  | .decode0NNN _ _ => 1
  | .decodeUnmapped _ _ => 2
  | .stackUnderflow _ _ => 3
  | .stackOverflow _ _ => 4
  | .memOutOfRange _ _ _ => 5
  | .fetchOutOfRange _ => 6
  | .imageTooLarge _ => 7
  | .renderFailed _ _ _ => 8

/-- The run status of rule R30. Only `running` has a next cycle. -/
inductive RunStatus where
  | running
  | halted (f : Fatal)
  | cancelled
  deriving DecidableEq, Repr

/-- What the other agents do in one coming cycle (rule R7): `ticks` timer ticks land before it (rule R210), the Host raises
the cancellation flag if `cancel` (rule R216), and a render in it answers `render`, Ok being `none` (rule R214). -/
structure EnvMove where
  ticks : Nat
  cancel : Bool
  render : Option RenderError
  deriving DecidableEq, Repr

/-- The state of the machine, every entry of rule R33, and the model's own `env` and `frames`. -/
structure State where
  /-- V0..VF (rules R20, R21). -/
  v : Vector Byte 16
  /-- The index register I (rule R24). -/
  i : Word
  /-- The program counter (rule R23). -/
  pc : Word
  /-- The call stack, the top entry first (rule R25). -/
  stack : List Word
  /-- The delay timer (rule R27). -/
  dt : Byte
  /-- The sound timer (rule R27). -/
  st : Byte
  /-- The cells that differ from their reset content, by rising address (rules R50, R52; log 18). -/
  mem : List Host.Cell
  /-- The frame buffer (rule R28). -/
  fb : FrameBuffer
  /-- The changed flag (rule R28). -/
  changed : Bool
  /-- The run status (rule R30). -/
  status : RunStatus
  /-- The cancellation flag (rule R31). -/
  cancel : Bool
  /-- The construction arguments (rules R10, R29): no step writes them (log 1). -/
  cfg : Config
  /-- The model's own field: the moves of the Timer tick agent and the Host, one entry a cycle, the coming cycle's first. When
  it is empty they are quiet (log 7). -/
  env : List EnvMove
  /-- The model's own field: the frames handed to the display sink so far, oldest first (rule R214, log 10). -/
  frames : List FrameBuffer
  deriving DecidableEq, Repr

/-- Why a step gives no next state. Every fatal condition of the spec is a next state whose status is `halted` (log 6). -/
inductive Fault where
  /-- Raised by `step` alone, in a state that a fatal condition has halted: rule R30 gives it no next cycle. Safe: nothing can be
  proved of a cycle the hardware does not run. -/
  | halted (f : Fatal)
  /-- Raised by `step` alone, in a cancelled state: rule R216 runs no later cycle. Safe, as above. -/
  | cancelled
  deriving DecidableEq, Repr

/-- Why an instruction is given no meaning. -/
inductive Refusal where
  /-- Raised by `exec` alone, for an instruction without a meaning yet, by its mnemonic. Safe. No arm raises it now. -/
  | notModelled (mnemonic : String)
  deriving DecidableEq, Repr

/-- Every pixel unlit. -/
def FrameBuffer.blank : FrameBuffer := []

/-- The machine constructed with the parameters `cfg`, after reset with no program loaded (rules R33, R230): an image of length 0
(rule R231). Loading an image is `State.boot` (log 16). -/
def State.initial (cfg : Config) : State where
  v := Vector.replicate 16 0
  i := 0x0000
  pc := cfg.programBase
  stack := []
  dt := 0
  st := 0
  mem := []
  fb := FrameBuffer.blank
  changed := false
  status := .running
  cancel := false
  cfg := cfg
  env := []
  frames := []

/-- The machine after reset, with the default parameters. -/
def State.reset : State := State.initial constructionConfig

end Sys2Proof.Machine
end

