-- ==== Sys2Proof/Machine/Memory.lean ====
section
/-! DEFINITION. Memory as the sorted list of the cells that differ from their reset content, and the frame buffer as the sorted
list of its lit pixels. `dflt` is what a cell that the list does not hold reads as. -/

namespace Sys2Proof.Machine

/-- The byte at `a` (rule R59: the most recent write, or the reset content). -/
def Memory.read (dflt : Nat → Byte) : List Host.Cell → Nat → Byte
  | [], a => dflt a
  | c :: m, a => if c.1 = a then c.2 else Memory.read dflt m a

/-- Put a cell before the first one at a higher address. -/
def Memory.insert (c : Host.Cell) : List Host.Cell → List Host.Cell
  | [] => [c]
  | d :: m => if c.1 < d.1 then c :: d :: m else d :: Memory.insert c m

/-- Drop the cell at `a`. -/
def Memory.erase (a : Nat) : List Host.Cell → List Host.Cell
  | [] => []
  | c :: m => if c.1 = a then Memory.erase a m else c :: Memory.erase a m

/-- Write `b` at `a`. Writing what an unlisted cell reads as removes the entry, so equal memories are equal lists. -/
def Memory.write (dflt : Nat → Byte) (m : List Host.Cell) (a : Nat) (b : Byte) : List Host.Cell :=
  if b = dflt a then Memory.erase a m else Memory.insert (a, b) (Memory.erase a m)

/-- The canonical form: addresses rise, each is one of the `size` cells, and no entry equals what an unlisted cell reads as. -/
abbrev Memory.wf (dflt : Nat → Byte) (size : Nat) (m : List Host.Cell) : Prop :=
  (m.Pairwise fun c d => c.1 < d.1) ∧ ∀ c ∈ m, c.1 < size ∧ c.2 ≠ dflt c.1

/-- The order of the lit pixels: by column, then by row. -/
abbrev FrameBuffer.before (p q : Nat × Nat) : Prop := p.1 < q.1 ∨ (p.1 = q.1 ∧ p.2 < q.2)

/-- The pixel at column `x`, row `y` (rule R14). -/
def FrameBuffer.pixel (f : FrameBuffer) (x y : Nat) : Bool := decide ((x, y) ∈ f)

/-- Light the pixel `p`, put before the first one after it. -/
def FrameBuffer.light (p : Nat × Nat) : FrameBuffer → FrameBuffer
  | [] => [p]
  | q :: f => if q = p then q :: f else if FrameBuffer.before p q then p :: q :: f else q :: FrameBuffer.light p f

/-- Put the pixel `p` out. -/
def FrameBuffer.unlight (p : Nat × Nat) (f : FrameBuffer) : FrameBuffer := f.filter (fun q => decide (q ≠ p))

/-- Write the pixel at column `x`, row `y` (rule R14). -/
def FrameBuffer.setPixel (f : FrameBuffer) (x y : Nat) (b : Bool) : FrameBuffer :=
  if b then FrameBuffer.light (x, y) f else FrameBuffer.unlight (x, y) f

/-- The canonical form: the lit pixels rise, and each lies on the screen of `sw` columns and `sh` rows. -/
abbrev FrameBuffer.wf (sw sh : Nat) (f : FrameBuffer) : Prop :=
  f.Pairwise FrameBuffer.before ∧ ∀ p ∈ f, p.1 < sw ∧ p.2 < sh

end Sys2Proof.Machine
end

