-- ==== Sys2Proof/Machine/Ops.lean ====
section
/-! DEFINITION. The named operations over registers, memory, the stack, the timers and the run status (00_scope.md rule R14).
Every instruction reads and writes the state through them. -/

namespace Sys2Proof.Machine

/-- What a meaning answers. -/
abbrev Result := Host.Outcome State Fault Refusal

/-! ### Registers -/

/-- `V[x]`. -/
def State.reg (s : State) (x : Reg) : Byte := s.v[x.val]

/-- `V[x] <- b`. -/
def State.setReg (s : State) (x : Reg) (b : Byte) : State := { s with v := s.v.set x.val b }

/-- `I <- w`. -/
def State.setI (s : State) (w : Word) : State := { s with i := w }

/-- `pc <- w`. -/
def State.goto (s : State) (w : Word) : State := { s with pc := w }

/-- pc advanced by 2, modulo 2^16: the fetch advance of rule R56 and the skip of rule R127. -/
def State.advance (s : State) : State := { s with pc := s.pc + 2 }

/-- `push(w)` of rule R14. -/
def State.push (s : State) (w : Word) : State := { s with stack := w :: s.stack }

/-! ### Memory: every access is one byte (rule R53) -/

/-- `MemRead(a, 1)`. -/
def State.peek (s : State) (a : Nat) : Byte := Memory.read (resetByte s.cfg) s.mem a

/-- `MemWrite(a, 1, b)`. -/
def State.poke (s : State) (a : Nat) (b : Byte) : State :=
  { s with mem := Memory.write (resetByte s.cfg) s.mem a b }

/-- The first of the `count` effective addresses I, I + 1, … that is no memory cell (exceeds 0xFFF at the default
MEM_SIZE), if one does not exist (rule R54): each address is an exact natural number. -/
def State.firstOutOfRange (s : State) (count : Nat) : Option Nat :=
  if count ≠ 0 ∧ s.i.toNat + count > s.cfg.memSize then some (max s.i.toNat s.cfg.memSize) else none

/-- `for k in 0..n-1: MemWrite(I + k, 1, V[k])` (rule R173). Only n ≤ 16 is asked for. -/
def State.storeRegs (s : State) : Nat → State
  | 0 => s
  | n + 1 => (s.storeRegs n).poke (s.i.toNat + n) (if h : n < 16 then s.v[n] else 0)

/-- `for k in 0..n-1: V[k] <- MemRead(I + k, 1)` (rule R174). Only n ≤ 16 is asked for. -/
def State.readRegs (s : State) : Nat → State
  | 0 => s
  | n + 1 => if h : n < 16 then (s.readRegs n).setReg ⟨n, h⟩ (s.peek (s.i.toNat + n)) else s.readRegs n

/-- The program image's bytes from address `a` on (rule R231). -/
def State.loadImage (s : State) (a : Nat) : List Byte → State
  | [] => s
  | b :: bs => (s.poke a b).loadImage (a + 1) bs

/-! ### Display -/

/-- Every pixel false (rule R110). -/
def State.clearFb (s : State) : State := { s with fb := FrameBuffer.blank }

/-- The frame buffer replaced as a whole. -/
def State.setFb (s : State) (f : FrameBuffer) : State := { s with fb := f }

/-- `changed <- b`. -/
def State.setChanged (s : State) (b : Bool) : State := { s with changed := b }

/-! ### A fatal condition (rules R200 to R204): the engine's only exception. There is no return from one (rule R204). -/

/-- `raise Fatal(cause, info)`: the run status becomes Halted(cause, info), and nothing else changes (rule R202). -/
def State.raise (s : State) (f : Fatal) : State := { s with status := .halted f }

/-- The fetch address of the executing instruction: pc before the advance (rules R23, R201; log 11). -/
def State.fetchAddr (s : State) : Word := s.pc - 2

/-- The fatal condition a decode error raises (rule R86). -/
def DecodeError.fatal (addr opcode : Word) : DecodeError → Fatal
  | .zeroNNN => .decode0NNN addr opcode
  | .unmapped => .decodeUnmapped addr opcode

/-- The bounds check of rule R54 for the instruction `i` over `count` bytes from I: on the first address past memory raise
MEM_OUT_OF_RANGE and do nothing else, otherwise go on. -/
def State.guardRange (s : State) (i : Instr) (count : Nat) (go : State) : Result :=
  match s.firstOutOfRange count with
  | some ea => .next (s.raise (.memOutOfRange s.fetchAddr (encode i) ea))
  | none => .next go

/-! ### Timers (rule R210) -/

/-- One decrement, saturating at 0. -/
def decrement (b : Byte) : Byte := if b = 0 then 0 else b - 1

/-- One timer tick. -/
def State.tick (s : State) : State := { s with dt := decrement s.dt, st := decrement s.st }

/-- `n` timer ticks. -/
def State.ticks : Nat → State → State
  | 0, s => s
  | n + 1, s => State.ticks n s.tick

end Sys2Proof.Machine
end

