-- ==== Sys2Proof/Machine/Operands.lean ====
section
/-! DEFINITION. The operand forms (30_encoding.md rule R83; 42_register_alu.md rule R150; 40_display.md rule R111). -/

namespace Sys2Proof.Machine

/-- The address NNN, zero-extended to 16 bits (rule R83). -/
def zextAddr (nnn : Addr12) : Word := nnn.setWidth 16

/-- The source of a shift: Vy in the legacy setting, Vx in the modern one (rule R150). -/
def State.shiftSource (s : State) (x y : Reg) : Byte := if s.cfg.legacyShift then s.reg y else s.reg x

/-- The origin column of a sprite, wrapped once (rule R111). -/
def State.originX (s : State) (x : Reg) : Nat := (s.reg x).toNat % s.cfg.screenW

/-- The origin row of a sprite, wrapped once (rule R111). -/
def State.originY (s : State) (y : Reg) : Nat := (s.reg y).toNat % s.cfg.screenH

/-- Row `r` of the sprite at I (rule R111). -/
def State.spriteRow (s : State) (r : Nat) : Byte := s.peek (s.i.toNat + r)

/-- The hundreds digit of a byte (rule R172). -/
def hundreds (b : Byte) : Byte := BitVec.ofNat 8 (b.toNat / 100)

/-- The tens digit of a byte (rule R172). -/
def tens (b : Byte) : Byte := BitVec.ofNat 8 (b.toNat / 10 % 10)

/-- The units digit of a byte (rule R172). -/
def units (b : Byte) : Byte := BitVec.ofNat 8 (b.toNat % 10)

end Sys2Proof.Machine
end

