-- ==== Sys2Proof/Machine/Flags.lean ====
section
/-! DEFINITION. The flags that instructions write to VF, always as their last write (10_state.md rule R21; 90_conflicts.md C2). -/

namespace Sys2Proof.Machine

/-- The byte a flag leaves in VF: 0x01 or 0x00. -/
def flagByte (b : Bool) : Byte := if b then 0x01 else 0x00

/-- `V[15] <- flag ? 0x01 : 0x00`. -/
def State.setFlag (s : State) (b : Bool) : State := s.setReg 15 (flagByte b)

/-- Carry out of bit 7: the exact sum exceeds 255 (rule R147). -/
def carry (a b : Byte) : Bool := decide (a.toNat + b.toNat > 255)

/-- No borrow in `a - b`: a ≥ b (rules R148, R149). -/
def noBorrow (a b : Byte) : Bool := decide (a.toNat ≥ b.toNat)

/-- The bit a right shift moves out: bit 0 (rule R152). -/
def shiftedOutRight (s : Byte) : Bool := s.getLsbD 0

/-- The bit a left shift moves out: bit 7 (rule R153). -/
def shiftedOutLeft (s : Byte) : Bool := s.getLsbD 7

end Sys2Proof.Machine
end

