-- ==== Sys2Proof/Machine/Alu.lean ====
section
/-! DEFINITION. The register and ALU instructions (42_register_alu.md). Operands are read before any write (rule R140), and a
flag is written after the result (rules R21, R151). -/

namespace Sys2Proof.Machine

/-- SetRegister (rule R141). -/
def execSetRegister (x : Reg) (nn : Byte) (s : State) : Result := .next (s.setReg x nn)

/-- AddValueToRegister (rule R142): modulo 256, no flag. -/
def execAddValueToRegister (x : Reg) (nn : Byte) (s : State) : Result := .next (s.setReg x (s.reg x + nn))

/-- Load (rule R143). -/
def execLoad (x y : Reg) (s : State) : Result := .next (s.setReg x (s.reg y))

/-- OR (rule R144). -/
def execOr (x y : Reg) (s : State) : Result := .next (s.setReg x (s.reg x ||| s.reg y))

/-- AND (rule R145). -/
def execAnd (x y : Reg) (s : State) : Result := .next (s.setReg x (s.reg x &&& s.reg y))

/-- XOR (rule R146). -/
def execXor (x y : Reg) (s : State) : Result := .next (s.setReg x (s.reg x ^^^ s.reg y))

/-- ADD (rule R147): VF is the carry. -/
def execAdd (x y : Reg) (s : State) : Result :=
  .next ((s.setReg x (s.reg x + s.reg y)).setFlag (carry (s.reg x) (s.reg y)))

/-- SUB (rule R148): Vx − Vy, VF is no borrow. -/
def execSub (x y : Reg) (s : State) : Result :=
  .next ((s.setReg x (s.reg x - s.reg y)).setFlag (noBorrow (s.reg x) (s.reg y)))

/-- SUBN (rule R149): Vy − Vx, VF is no borrow. -/
def execSubn (x y : Reg) (s : State) : Result :=
  .next ((s.setReg x (s.reg y - s.reg x)).setFlag (noBorrow (s.reg y) (s.reg x)))

/-- ShiftRight (rules R150 to R152): VF is the bit shifted out. -/
def execShiftRight (x y : Reg) (s : State) : Result :=
  .next ((s.setReg x (s.shiftSource x y >>> 1)).setFlag (shiftedOutRight (s.shiftSource x y)))

/-- ShiftLeft (rules R150, R151, R153): VF is the bit shifted out. -/
def execShiftLeft (x y : Reg) (s : State) : Result :=
  .next ((s.setReg x (s.shiftSource x y <<< 1)).setFlag (shiftedOutLeft (s.shiftSource x y)))

end Sys2Proof.Machine
end

