-- ==== Sys2Proof/Machine/ControlFlow.lean ====
section
/-! DEFINITION. Return, Jump, Call and the skips (41_control_flow.md). pc already holds the instruction's address plus 2. -/

namespace Sys2Proof.Machine

/-- pc past the next instruction if `c` (rule R127). -/
def State.skipIf (s : State) (c : Bool) : State := if c then s.advance else s

/-- Return (rule R120): pc is the popped entry, an empty stack is fatal. -/
def execReturn (s : State) : Result :=
  match s.stack with
  | [] => .next (s.raise (.stackUnderflow s.fetchAddr (encode .ret)))
  | a :: rest => .next { s with pc := a, stack := rest }

/-- Jump (rule R121). -/
def execJump (nnn : Addr12) (s : State) : Result := .next (s.goto (zextAddr nnn))

/-- Call (rule R122): push the post-fetch pc, then jump. At depth STACK_CAP it is fatal. -/
def execCall (nnn : Addr12) (s : State) : Result :=
  if s.cfg.stackCap = some s.stack.length then
    .next (s.raise (.stackOverflow s.fetchAddr (encode (.call nnn))))
  else .next ((s.push s.pc).goto (zextAddr nnn))

/-- SkipEqualX (rule R123). -/
def execSkipEqualX (x : Reg) (nn : Byte) (s : State) : Result := .next (s.skipIf (s.reg x == nn))

/-- SkipNotEqualX (rule R124). -/
def execSkipNotEqualX (x : Reg) (nn : Byte) (s : State) : Result := .next (s.skipIf (s.reg x != nn))

/-- SkipEqualXY (rule R125). -/
def execSkipEqualXY (x y : Reg) (s : State) : Result := .next (s.skipIf (s.reg x == s.reg y))

/-- SkipNotEqualXY (rule R126). -/
def execSkipNotEqualXY (x y : Reg) (s : State) : Result := .next (s.skipIf (s.reg x != s.reg y))

end Sys2Proof.Machine
end

