-- ==== Sys2Proof/Machine/Display.lean ====
section
/-! DEFINITION. ClearScreen and Draw (40_display.md). -/

namespace Sys2Proof.Machine

/-- ClearScreen (rule R110): every pixel false, and changed is set if CLS_SETS_CHANGED. -/
def execClearScreen (s : State) : Result :=
  .next (if s.cfg.clsSetsChanged then s.clearFb.setChanged true else s.clearFb)

/-- A frame buffer being drawn on, and whether a lit pixel has met a 1 bit so far. -/
structure Canvas where
  fb : FrameBuffer
  collision : Bool
  deriving DecidableEq, Repr

/-- One sprite bit at column `px`, row `py` (rule R111): clipped outside the screen of `sw` columns and `sh` rows, else XORed
in, a lit pixel meeting a 1 bit being a collision. -/
def Canvas.plot (sw sh : Nat) (c : Canvas) (px py : Nat) (bit : Bool) : Canvas :=
  if px < sw ∧ py < sh ∧ bit = true then
    { fb := c.fb.setPixel px py (!c.fb.pixel px py), collision := c.collision || c.fb.pixel px py }
  else c

/-- The first `b` bits of a sprite row, the most significant first, from column `x0` of row `py` on (rule R111). -/
def Canvas.plotRow (sw sh : Nat) (c : Canvas) (row : Byte) (x0 py : Nat) : Nat → Canvas
  | 0 => c
  | b + 1 => Canvas.plot sw sh (Canvas.plotRow sw sh c row x0 py b) (x0 + b) py (row.getLsbD (7 - b))

/-- The first `r` rows of a sprite whose origin is column `x0`, row `y0` (rule R111). -/
def Canvas.plotSprite (sw sh : Nat) (c : Canvas) (rows : Nat → Byte) (x0 y0 : Nat) : Nat → Canvas
  | 0 => c
  | r + 1 => Canvas.plotRow sw sh (Canvas.plotSprite sw sh c rows x0 y0 r) (rows r) x0 (y0 + r) 8

/-- What Draw leaves on the frame buffer and as collision. -/
def State.drawn (s : State) (x y : Reg) (n : Height) : Canvas :=
  Canvas.plotSprite s.cfg.screenW s.cfg.screenH { fb := s.fb, collision := false } s.spriteRow (s.originX x) (s.originY y) n.val

/-- Draw (rule R111): all N row addresses are checked first, then the sprite is XORed in, VF is the collision, changed is
set. -/
def execDraw (x y : Reg) (n : Height) (s : State) : Result :=
  s.guardRange (.draw x y n) n.val
    (((s.setFb (s.drawn x y n).fb).setFlag (s.drawn x y n).collision).setChanged true)

end Sys2Proof.Machine
end

