-- ==== Sys2Proof/Machine/IndexMemory.lean ====
section
/-! DEFINITION. The index register and memory instructions (43_index_memory.md). Every address is checked before any access
(20_memory.md rule R54). -/

namespace Sys2Proof.Machine

/-- SetIndexRegister (rule R170). -/
def execSetIndexRegister (nnn : Addr12) (s : State) : Result := .next (s.setI (zextAddr nnn))

/-- AddToIndex (rule R171): modulo 2^16, no flag. Its word is illegal unless HAS_ADD_TO_INDEX (rule R11), which decode sees
to. -/
def execAddToIndex (x : Reg) (s : State) : Result := .next (s.setI (s.i + (s.reg x).setWidth 16))

/-- BinaryCodedDecimal (rule R172): the hundreds, tens and units digits of Vx at I, I + 1, I + 2. -/
def execBinaryCodedDecimal (x : Reg) (s : State) : Result :=
  s.guardRange (.binaryCodedDecimal x) 3
    (((s.poke s.i.toNat (hundreds (s.reg x))).poke (s.i.toNat + 1) (tens (s.reg x))).poke (s.i.toNat + 2) (units (s.reg x)))

/-- StoreRegisters (rule R173): V0..Vx to I..I+X. I is not changed. -/
def execStoreRegisters (x : Reg) (s : State) : Result :=
  s.guardRange (.storeRegisters x) (x.val + 1) (s.storeRegs (x.val + 1))

/-- ReadIntoRegisters (rule R174): V0..Vx from I..I+X. I is not changed. -/
def execReadIntoRegisters (x : Reg) (s : State) : Result :=
  s.guardRange (.readIntoRegisters x) (x.val + 1) (s.readRegs (x.val + 1))

end Sys2Proof.Machine
end

