-- ==== Sys2Proof/Machine/Dispatch.lean ====
section
/-! DEFINITION. One arm per instruction, each one call of its meaning. -/

namespace Sys2Proof.Machine

def exec (i : Instr) (s : State) : Host.Outcome State Fault Refusal :=
  match i with
  | .clearScreen => Sys2Proof.Machine.execClearScreen s
  | .ret => Sys2Proof.Machine.execReturn s
  | .jump nnn => Sys2Proof.Machine.execJump nnn s
  | .call nnn => Sys2Proof.Machine.execCall nnn s
  | .skipEqualX x nn => Sys2Proof.Machine.execSkipEqualX x nn s
  | .skipNotEqualX x nn => Sys2Proof.Machine.execSkipNotEqualX x nn s
  | .skipEqualXY x y => Sys2Proof.Machine.execSkipEqualXY x y s
  | .setRegister x nn => Sys2Proof.Machine.execSetRegister x nn s
  | .addValueToRegister x nn => Sys2Proof.Machine.execAddValueToRegister x nn s
  | .load x y => Sys2Proof.Machine.execLoad x y s
  | .or x y => Sys2Proof.Machine.execOr x y s
  | .and x y => Sys2Proof.Machine.execAnd x y s
  | .xor x y => Sys2Proof.Machine.execXor x y s
  | .add x y => Sys2Proof.Machine.execAdd x y s
  | .sub x y => Sys2Proof.Machine.execSub x y s
  | .shiftRight x y => Sys2Proof.Machine.execShiftRight x y s
  | .subn x y => Sys2Proof.Machine.execSubn x y s
  | .shiftLeft x y => Sys2Proof.Machine.execShiftLeft x y s
  | .skipNotEqualXY x y => Sys2Proof.Machine.execSkipNotEqualXY x y s
  | .setIndexRegister nnn => Sys2Proof.Machine.execSetIndexRegister nnn s
  | .draw x y n => Sys2Proof.Machine.execDraw x y n s
  | .binaryCodedDecimal x => Sys2Proof.Machine.execBinaryCodedDecimal x s
  | .storeRegisters x => Sys2Proof.Machine.execStoreRegisters x s
  | .readIntoRegisters x => Sys2Proof.Machine.execReadIntoRegisters x s
  | .addToIndex x => Sys2Proof.Machine.execAddToIndex x s

end Sys2Proof.Machine
end

