-- ==== Sys2Proof/Machine/Cycle.lean ====
section
/-! DEFINITION. The instruction cycle of 20_memory.md rule R56, phase by phase, and the boundary before it at which the other
agents move (00_scope.md rule R7). pace() of rule R241 writes no state and has no counterpart. -/

namespace Sys2Proof.Machine

/-- The quiet move: no tick, no cancellation, and a render answers Ok (log 7). -/
def EnvMove.quiet : EnvMove where
  ticks := 0
  cancel := false
  render := none

/-- What the other agents do in the coming cycle. -/
def State.move (s : State) : EnvMove := s.env.headD EnvMove.quiet

/-- The cycle boundary: the ticks of the coming cycle's move land (rule R210), and the Host's write of the cancellation flag
becomes visible (rule R216). -/
def State.boundary (s : State) : State :=
  { State.ticks s.move.ticks s with cancel := s.cancel || s.move.cancel, env := s.env.tail }

/-- The two bytes at pc as a word, the first one high, or nothing where pc + 1 is no memory cell (exceeds
0xFFF at the default MEM_SIZE; rule R55). -/
def State.fetchWord (s : State) : Option Word :=
  if s.pc.toNat + 1 ≥ s.cfg.memSize then none
  else some (wordOfBytes (s.peek s.pc.toNat) (s.peek (s.pc.toNat + 1)))

/-- The end of a cycle whose instruction raised nothing: if changed is set, hand the frame to the display sink (rules R214,
R215). Ok clears changed, an error is fatal and leaves changed set (rule R202). -/
def present (addr opcode : Word) (answer : Option RenderError) (u : State) : State :=
  match u.status, u.changed, answer with
  | .running, true, none => { u with frames := u.frames ++ [u.fb], changed := false }
  | .running, true, some e => { u with frames := u.frames ++ [u.fb], status := .halted (.renderFailed addr opcode e) }
  | _, _, _ => u

/-- The render phase after what `exec` answers. -/
def finish (addr opcode : Word) (answer : Option RenderError) : Result → Result
  | .next u => .next (present addr opcode answer u)
  | .fault f => .fault f
  | .refused r => .refused r

/-- One cycle (rule R56), a render in it answering `answer`: poll cancellation, fetch, advance pc, decode, execute, render. -/
def cycle (answer : Option RenderError) (s : State) : Result :=
  if s.cancel then .next { s with status := .cancelled }
  else
    match s.fetchWord with
    | none => .next (s.raise (.fetchOutOfRange s.pc))
    | some w =>
      match decode s.cfg w with
      | .illegal e => .next (s.advance.raise (DecodeError.fatal s.pc w e))
      | .ok i => finish s.pc w answer (exec i s.advance)

/-- One step: a Running engine performs its next cycle, and a halted or cancelled one has none (rule R30). -/
def stepState (s : State) : Result :=
  match s.status with
  | .running => cycle s.move.render s.boundary
  | .halted f => .fault (.halted f)
  | .cancelled => .fault .cancelled

/-- `s` with the word `w` stored at `a` and `a + 1`, high byte first (rule R57). -/
def State.pokeWord (s : State) (a : Nat) (w : Word) : State := (s.poke a (highByte w)).poke (a + 1) (lowByte w)

/-- `s` with the word `w` placed where the very next step fetches it, and all that this takes (log 17): the engine Running and
not cancelled, pc where two bytes exist, and HAS_ADD_TO_INDEX for a word that is an instruction only under it. -/
def State.placeWord (s : State) (w : Word) : State :=
  let t : State :=
    { s with
      status := .running
      cancel := false
      env := match s.env with
        | [] => []
        | m :: ms => { m with cancel := false } :: ms
      pc := if s.pc.toNat + 1 ≥ s.cfg.memSize then s.cfg.programBase else s.pc
      cfg := if w &&& 0xF0FF = 0xF01E then { s.cfg with hasAddToIndex := true } else s.cfg }
  t.pokeWord t.pc.toNat w

end Sys2Proof.Machine
end

