-- ==== Sys2Proof/Machine/Step.lean ====
section
/-! DEFINITION. The step function. Its phases are in Cycle.lean. -/

namespace Sys2Proof.Machine

/-- One step of the machine: one instruction cycle (rule R56). -/
def step (s : State) : Host.Outcome State Fault Refusal := stepState s

/-- `s` with the instruction whose bits are `w` stored where the next step fetches (log 17). -/
def State.withFetchWord (s : State) (nbits w : Nat) : State := s.placeWord (BitVec.ofNat 16 (w % 2 ^ nbits))

end Sys2Proof.Machine
end

