-- ==== Sys2Proof/Machine/Boot.lean ====
section
/-! DEFINITION. Construction and reset with a program image (70_reset_and_hazards.md rules R230 to R232). -/

namespace Sys2Proof.Machine

/-- The longest image an instance can load: MAX_IMAGE, and never more than the cells from PROGRAM_BASE on, which MAX_IMAGE is at
its default (log 22). -/
def Config.imageLimit (cfg : Config) : Nat := min cfg.maxImage (cfg.memSize - cfg.programBase.toNat)

/-- The machine after reset, constructed with the parameters `cfg` and the program image `image` (rules R230, R231). An image
above MAX_IMAGE bytes is fatal: none of it is written and no cycle runs (rule R232). -/
def State.boot (cfg : Config) (image : List Byte) : State :=
  if image.length > Config.imageLimit cfg then (State.initial cfg).raise (.imageTooLarge image.length)
  else (State.initial cfg).loadImage cfg.programBase.toNat image

end Sys2Proof.Machine
end

