-- ==== Sys2Proof/Safety.lean ====
section
/-! DEFINITION. The terms in which claims are stated: the canonical words of 30_encoding.md rule R90 as numbers, the closed form
of a sprite, the families of instructions, runs of the executor alone, the invariant of the machine, and what counts as a safe
run (60_exceptions.md rule R218). -/

namespace Sys2Proof.Machine

/-! ### Words by formula (rule R90), independent of the encoder -/

/-- `base | nnn`. -/
def wordADDR (base : Word) (nnn : Addr12) : Word := base ||| nnn.setWidth 16

/-- `base | x<<8 | nn`. -/
def wordXNN (base : Word) (x : Reg) (nn : Byte) : Word := base ||| BitVec.ofNat 16 x.val <<< 8 ||| nn.setWidth 16

/-- `base | x<<8 | y<<4 | n`. -/
def wordXYN (base : Word) (x y : Reg) (n : BitVec 4) : Word :=
  base ||| BitVec.ofNat 16 x.val <<< 8 ||| BitVec.ofNat 16 y.val <<< 4 ||| n.setWidth 16

/-- The words of rule R87 with cause DECODE_0NNN. -/
def isZeroNNN (w : Word) : Prop := w.toNat < 0x1000 ∧ w.toNat ≠ 0x00E0 ∧ w.toNat ≠ 0x00EE

/-- The words of rule R87 with cause DECODE_UNMAPPED. -/
def isUnmapped (cfg : Config) (w : Word) : Prop :=
  w.toNat / 0x1000 ∈ [0xB, 0xC, 0xE] ∨
  (w.toNat / 0x1000 = 0x8 ∧ w.toNat % 0x10 ∈ [0x8, 0x9, 0xA, 0xB, 0xC, 0xD, 0xF]) ∨
  (w.toNat / 0x1000 = 0xF ∧ w.toNat % 0x100 ∉ [0x33, 0x55, 0x65] ∧ ¬(w.toNat % 0x100 = 0x1E ∧ cfg.hasAddToIndex = true)) ∨
  (w.toNat / 0x1000 ∈ [0x5, 0x9] ∧ w.toNat % 0x10 ≠ 0 ∧ cfg.strictLowNibble = true)

/-! ### Sprites -/

/-- The bit the sprite of `draw x y n` in state `s` brings to column `px`, row `py` (rule R111): bit 7 of row 0 lands at the
origin, and the body is not wrapped. -/
def State.spriteBit (s : State) (x y : Reg) (n : Height) (px py : Nat) : Bool :=
  decide (s.originX x ≤ px ∧ px < s.originX x + 8 ∧ s.originY y ≤ py ∧ py < s.originY y + n.val) &&
    (s.spriteRow (py - s.originY y)).getLsbD (7 - (px - s.originX x))

/-! ### Instructions by family -/

/-- The section files 40 to 43 of the spec. -/
inductive Family where
  | display
  | controlFlow
  | alu
  | indexMemory
  deriving DecidableEq, Repr

/-- The file that specifies an instruction. -/
def family : Instr → Family
  | .clearScreen | .draw _ _ _ => .display
  | .ret | .jump _ | .call _ => .controlFlow
  | .skipEqualX _ _ | .skipNotEqualX _ _ | .skipEqualXY _ _ | .skipNotEqualXY _ _ => .controlFlow
  | .setRegister _ _ | .addValueToRegister _ _ | .load _ _ | .or _ _ | .and _ _ | .xor _ _ => .alu
  | .add _ _ | .sub _ _ | .subn _ _ | .shiftRight _ _ | .shiftLeft _ _ => .alu
  | .setIndexRegister _ | .addToIndex _ | .binaryCodedDecimal _ | .storeRegisters _ | .readIntoRegisters _ => .indexMemory

/-- The instructions that write VF as a flag (rule R21). -/
def writesFlag : Instr → Bool
  | .add _ _ | .sub _ _ | .subn _ _ | .shiftRight _ _ | .shiftLeft _ _ | .draw _ _ _ => true
  | .clearScreen | .ret | .jump _ | .call _ => false
  | .skipEqualX _ _ | .skipNotEqualX _ _ | .skipEqualXY _ _ | .skipNotEqualXY _ _ => false
  | .setRegister _ _ | .addValueToRegister _ _ | .load _ _ | .or _ _ | .and _ _ | .xor _ _ => false
  | .setIndexRegister _ | .addToIndex _ | .binaryCodedDecimal _ | .storeRegisters _ | .readIntoRegisters _ => false

/-- The registers an instruction names as its destination (the "writes" column of rule R22, VF as a flag apart). -/
def writesReg : Instr → Reg → Bool
  | .setRegister x _, r | .addValueToRegister x _, r => r == x
  | .load x _, r | .or x _, r | .and x _, r | .xor x _, r => r == x
  | .add x _, r | .sub x _, r | .subn x _, r | .shiftRight x _, r | .shiftLeft x _, r => r == x
  | .readIntoRegisters x, r => decide (r.val ≤ x.val)
  | .clearScreen, _ | .draw _ _ _, _ | .ret, _ | .jump _, _ | .call _, _ => false
  | .skipEqualX _ _, _ | .skipNotEqualX _ _, _ | .skipEqualXY _ _, _ | .skipNotEqualXY _ _, _ => false
  | .setIndexRegister _, _ | .addToIndex _, _ | .binaryCodedDecimal _, _ | .storeRegisters _, _ => false

/-- How many bytes from I on an instruction stores (rules R172, R173). -/
def storedBytes : Instr → Nat
  | .binaryCodedDecimal _ => 3
  | .storeRegisters x => x.val + 1
  | .clearScreen | .draw _ _ _ | .ret | .jump _ | .call _ => 0
  | .skipEqualX _ _ | .skipNotEqualX _ _ | .skipEqualXY _ _ | .skipNotEqualXY _ _ => 0
  | .setRegister _ _ | .addValueToRegister _ _ | .load _ _ | .or _ _ | .and _ _ | .xor _ _ => 0
  | .add _ _ | .sub _ _ | .subn _ _ | .shiftRight _ _ | .shiftLeft _ _ => 0
  | .setIndexRegister _ | .addToIndex _ | .readIntoRegisters _ => 0

/-- Byte `k` of those an instruction stores from I on (rules R172, R173), for `k` below `storedBytes`. -/
def State.storedByte (s : State) : Instr → Nat → Byte
  | .binaryCodedDecimal x, k => BitVec.ofNat 8 ((s.v[x.val].toNat / 10 ^ (2 - k)) % 10)
  | .storeRegisters _, k => s.v[k % 16]'(Nat.mod_lt _ (by decide))
  | .clearScreen, _ | .draw _ _ _, _ | .ret, _ | .jump _, _ | .call _, _ => 0
  | .skipEqualX _ _, _ | .skipNotEqualX _ _, _ | .skipEqualXY _ _, _ | .skipNotEqualXY _ _, _ => 0
  | .setRegister _ _, _ | .addValueToRegister _ _, _ | .load _ _, _ | .or _ _, _ | .and _ _, _ | .xor _ _, _ => 0
  | .add _ _, _ | .sub _ _, _ | .subn _ _, _ | .shiftRight _ _, _ | .shiftLeft _ _, _ => 0
  | .setIndexRegister _, _ | .addToIndex _, _ | .readIntoRegisters _, _ => 0

/-! ### Runs -/

/-- Instructions executed one after another, neither fetched nor rendered (the executor level of 90_conflicts.md C3), stopping at
a fatal condition. -/
def execAll : List Instr → State → Result
  | [], s => .next s
  | i :: is, s =>
    match exec i s with
    | .next t =>
      match t.status with
      | .running => execAll is t
      | .halted _ => .next t
      | .cancelled => .next t
    | .fault f => .fault f
    | .refused r => .refused r

/-- pc stands at a `JP` to its own address (rule R219). -/
def State.atSelfJump (s : State) : Prop := s.fetchWord = some (0x1000 ||| s.pc) ∧ s.pc.toNat < 0x1000

/-- No fatal condition has halted the engine (rule R218). -/
def State.safe (s : State) : Bool :=
  match s.status with
  | .running => true
  | .halted _ => false
  | .cancelled => true

/-- The run of `n` steps from `s` reaches no fatal condition: the premise rule R218 asks of a claim that a program runs
correctly. -/
def safeFor : Nat → State → Bool
  | 0, s => s.safe
  | n + 1, s =>
    s.safe &&
      match step s with
      | .next t => safeFor n t
      | .fault _ => true
      | .refused _ => false

/-! ### The invariant -/

/-- The highest pc a step can leave: past a skip over the end of memory, at a 12-bit target, or where the program begins. At the
default parameters it is 0x1002, so pc never wraps (rule R23). -/
def Config.pcMax (cfg : Config) : Nat := max (cfg.memSize + 2) (max 0xFFF cfg.programBase.toNat)

/-- What holds at every cycle boundary of a run: memory and every frame are in canonical form; pc is where a fetch, a jump, a skip
or a return can have left it; every return address is one a Call can push (rule R122); the stack respects STACK_CAP (rule R26); I
exceeds 12 bits only through AddToIndex (rule R24); and changed is false while the engine runs (rule R214). -/
structure State.Inv (s : State) : Prop where
  mem_wf : Memory.wf (resetByte s.cfg) s.cfg.memSize s.mem
  fb_wf : FrameBuffer.wf s.cfg.screenW s.cfg.screenH s.fb
  frames_wf : ∀ f ∈ s.frames, FrameBuffer.wf s.cfg.screenW s.cfg.screenH f
  pc_le : s.pc.toNat ≤ Config.pcMax s.cfg
  stack_le : ∀ r ∈ s.stack, r.toNat ≤ s.cfg.memSize
  stack_cap : ∀ c, s.cfg.stackCap = some c → s.stack.length ≤ c
  i_le : s.cfg.hasAddToIndex = false → s.i.toNat ≤ 0xFFF
  not_changed : s.status = .running → s.changed = false

end Sys2Proof.Machine
end

