-- ==== Sys2Proof/Certificates/Slice0/Obligations.lean ====
section
/-! DEFINITION. The statements for the provers, from the numbered rules of spec/. A next state is written out as a record update
of the state before, so that every field not named in it is unchanged. -/

open Sys2Proof Sys2Proof.Machine

/-! ### Encoding (30_encoding.md) -/

/-- 30_encoding.md section 3: "For every instruction i, decode(encode(i)) = i" (the spec's own inference, rule R90). AddToIndex is
an instruction only under HAS_ADD_TO_INDEX. -/
def Obligations.DecodeInvertsEncode : Prop :=
  ∀ (cfg : Config) (i : Instr), i.wellFormed cfg = true → decode cfg (encode i) = .ok i

/-- 30_encoding.md section 3: "for every legal word w, encode(decode(w)) = w except that a 5XYN or 9XYN word with N ≠ 0 …
re-encodes with N = 0" (the spec's own inference, rule R90). What decodes is an instruction of the instance. -/
def Obligations.EncodeInvertsDecode : Prop :=
  ∀ (cfg : Config) (w : Word) (i : Instr), decode cfg w = .ok i →
    i.wellFormed cfg = true ∧
    (encode i = w ∨
      (w.toNat / 0x1000 ∈ [0x5, 0x9] ∧ w.toNat % 0x10 ≠ 0 ∧ cfg.strictLowNibble = false ∧ encode i = w &&& 0xFFF0))

/-- 30_encoding.md section 3, "Each instruction has one canonical word" (the spec's own inference, rule R90): the encoder gives
the words of that list. -/
def Obligations.CanonicalWords : Prop :=
  encode .clearScreen = 0x00E0 ∧ encode .ret = 0x00EE ∧
  (∀ a, encode (.jump a) = wordADDR 0x1000 a ∧ encode (.call a) = wordADDR 0x2000 a ∧
    encode (.setIndexRegister a) = wordADDR 0xA000 a) ∧
  (∀ x k, encode (.skipEqualX x k) = wordXNN 0x3000 x k ∧ encode (.skipNotEqualX x k) = wordXNN 0x4000 x k ∧
    encode (.setRegister x k) = wordXNN 0x6000 x k ∧ encode (.addValueToRegister x k) = wordXNN 0x7000 x k) ∧
  (∀ x y, encode (.skipEqualXY x y) = wordXYN 0x5000 x y 0 ∧ encode (.skipNotEqualXY x y) = wordXYN 0x9000 x y 0 ∧
    encode (.load x y) = wordXYN 0x8000 x y 0x0 ∧ encode (.or x y) = wordXYN 0x8000 x y 0x1 ∧
    encode (.and x y) = wordXYN 0x8000 x y 0x2 ∧ encode (.xor x y) = wordXYN 0x8000 x y 0x3 ∧
    encode (.add x y) = wordXYN 0x8000 x y 0x4 ∧ encode (.sub x y) = wordXYN 0x8000 x y 0x5 ∧
    encode (.shiftRight x y) = wordXYN 0x8000 x y 0x6 ∧ encode (.subn x y) = wordXYN 0x8000 x y 0x7 ∧
    encode (.shiftLeft x y) = wordXYN 0x8000 x y 0xE) ∧
  (∀ x y (n : Height), encode (.draw x y n) = wordXYN 0xD000 x y (BitVec.ofNat 4 n.val)) ∧
  (∀ x, encode (.binaryCodedDecimal x) = wordXNN 0xF000 x 0x33 ∧ encode (.storeRegisters x) = wordXNN 0xF000 x 0x55 ∧
    encode (.readIntoRegisters x) = wordXNN 0xF000 x 0x65 ∧ encode (.addToIndex x) = wordXNN 0xF000 x 0x1E)

/-- Rule R87: the illegal words are exactly those it lists, each under the cause it gives, and one that is fetched is fatal with
that cause, whatever the state. -/
def Obligations.IllegalWordsAreExactly : Prop :=
  (∀ (cfg : Config) (w : Word), decode cfg w = .illegal .zeroNNN ↔ isZeroNNN w) ∧
  (∀ (cfg : Config) (w : Word), decode cfg w = .illegal .unmapped ↔ isUnmapped cfg w) ∧
  (∀ (s : State) (w : Word), s.status = .running → (s.cancel || s.move.cancel) = false → s.fetchWord = some w →
    (isZeroNNN w → ∃ t addr opcode, step s = .next t ∧ t.status = .halted (.decode0NNN addr opcode)) ∧
    (isUnmapped s.cfg w → ∃ t addr opcode, step s = .next t ∧ t.status = .halted (.decodeUnmapped addr opcode)))

/-- What a fetched illegal word leaves: only pc advanced, and the fetch address and the word as the diagnostic (60_exceptions.md
section 1, the spec's decisions D18 and D19). -/
def Obligations.DecodeFaultWritesNothing : Prop :=
  ∀ (s : State) (w : Word), s.status = .running → (s.cancel || s.move.cancel) = false → s.fetchWord = some w →
    (isZeroNNN w →
      step s = .next { s.boundary with pc := s.pc + 2, status := .halted (.decode0NNN s.pc w) }) ∧
    (isUnmapped s.cfg w →
      step s = .next { s.boundary with pc := s.pc + 2, status := .halted (.decodeUnmapped s.pc w) })

/-- Rules R84 and R85: what each family decodes to, the fields being quotients and remainders of the word's value. -/
def Obligations.DecodeByFamily : Prop :=
  ∀ (cfg : Config) (w : Word),
    let x : Reg := Fin.ofNat 16 (w.toNat / 0x100)
    let y : Reg := Fin.ofNat 16 (w.toNat / 0x10)
    let n := w.toNat % 0x10
    let nn : Byte := BitVec.ofNat 8 w.toNat
    let nnn : Addr12 := BitVec.ofNat 12 w.toNat
    let strict := cfg.strictLowNibble = true ∧ n ≠ 0
    (w.toNat / 0x1000 = 0x0 → decode cfg w =
      if w = 0x00E0 then .ok .clearScreen else if w = 0x00EE then .ok .ret else .illegal .zeroNNN) ∧
    (w.toNat / 0x1000 = 0x1 → decode cfg w = .ok (.jump nnn)) ∧
    (w.toNat / 0x1000 = 0x2 → decode cfg w = .ok (.call nnn)) ∧
    (w.toNat / 0x1000 = 0x3 → decode cfg w = .ok (.skipEqualX x nn)) ∧
    (w.toNat / 0x1000 = 0x4 → decode cfg w = .ok (.skipNotEqualX x nn)) ∧
    (w.toNat / 0x1000 = 0x5 → decode cfg w = if strict then .illegal .unmapped else .ok (.skipEqualXY x y)) ∧
    (w.toNat / 0x1000 = 0x6 → decode cfg w = .ok (.setRegister x nn)) ∧
    (w.toNat / 0x1000 = 0x7 → decode cfg w = .ok (.addValueToRegister x nn)) ∧
    (w.toNat / 0x1000 = 0x8 → decode cfg w =
      if n = 0x0 then .ok (.load x y) else if n = 0x1 then .ok (.or x y) else if n = 0x2 then .ok (.and x y)
      else if n = 0x3 then .ok (.xor x y) else if n = 0x4 then .ok (.add x y) else if n = 0x5 then .ok (.sub x y)
      else if n = 0x6 then .ok (.shiftRight x y) else if n = 0x7 then .ok (.subn x y)
      else if n = 0xE then .ok (.shiftLeft x y) else .illegal .unmapped) ∧
    (w.toNat / 0x1000 = 0x9 → decode cfg w = if strict then .illegal .unmapped else .ok (.skipNotEqualXY x y)) ∧
    (w.toNat / 0x1000 = 0xA → decode cfg w = .ok (.setIndexRegister nnn)) ∧
    (w.toNat / 0x1000 = 0xB → decode cfg w = .illegal .unmapped) ∧
    (w.toNat / 0x1000 = 0xC → decode cfg w = .illegal .unmapped) ∧
    (w.toNat / 0x1000 = 0xD → decode cfg w = .ok (.draw x y (Fin.ofNat 16 n))) ∧
    (w.toNat / 0x1000 = 0xE → decode cfg w = .illegal .unmapped) ∧
    (w.toNat / 0x1000 = 0xF → decode cfg w =
      if nn = 0x33 then .ok (.binaryCodedDecimal x) else if nn = 0x55 then .ok (.storeRegisters x)
      else if nn = 0x65 then .ok (.readIntoRegisters x)
      else if nn = 0x1E ∧ cfg.hasAddToIndex = true then .ok (.addToIndex x) else .illegal .unmapped)

/-- Rule R91: the source's decode fixtures, under every parameter setting. -/
def Obligations.DecodeFixtures : Prop :=
  ∀ cfg : Config,
    decodeBytes cfg 0x00 0xE0 = .ok .clearScreen ∧ decodeBytes cfg 0xD3 0x28 = .ok (.draw 3 2 8) ∧
    decodeBytes cfg 0xAD 0xFF = .ok (.setIndexRegister 0xDFF) ∧ decodeBytes cfg 0x8A 0x32 = .ok (.and 0xA 3)

/-- 30_encoding.md section 3: decode's "result depends only on w and on the two configuration parameters HAS_ADD_TO_INDEX and
STRICT_5_9_LOW_NIBBLE". -/
def Obligations.DecodeReadsTwoParameters : Prop :=
  ∀ (c d : Config) (w : Word), c.hasAddToIndex = d.hasAddToIndex → c.strictLowNibble = d.strictLowNibble →
    decode c w = decode d w

/-! ### The cycle (20_memory.md, 60_exceptions.md) -/

/-- When the two bytes at pc, the first one high, decode to an instruction, a step of a running engine that is not cancelled is
that instruction executed after the boundary and the advance of pc by 2, then the render phase (20_memory.md section 4). -/
def Obligations.StepRunsTheDecodedInstruction : Prop :=
  ∀ (s : State) (w : Word) (i : Instr), s.status = .running → (s.cancel || s.move.cancel) = false →
    s.pc.toNat + 1 < s.cfg.memSize → w.toNat = (s.peek s.pc.toNat).toNat * 256 + (s.peek (s.pc.toNat + 1)).toNat →
    decode s.cfg w = .ok i →
    ∃ t, exec i { s.boundary with pc := s.pc + 2 } = .next t ∧ step s = .next (present s.pc w s.move.render t)

/-- Before a cycle the timer ticks of the coming move land, each decrementing DT and ST and saturating at 0, and the Host's write
of the cancellation flag becomes visible. Nothing else changes (60_exceptions.md section 3, the spec's decision D15; the order and
the list of moves are the model's choice, log 7 and 8). -/
def Obligations.TimerTicksSaturate : Prop :=
  ∀ s : State,
    s.boundary = { s with
      dt := BitVec.ofNat 8 (s.dt.toNat - s.move.ticks), st := BitVec.ofNat 8 (s.st.toNat - s.move.ticks),
      cancel := s.cancel || s.move.cancel, env := s.env.tail }

/-- Cancellation is polled before anything else: a set flag makes the run status Cancelled, whatever stands at pc, and nothing is
fetched (60_exceptions.md section 4, the spec's decisions D16 and D21). -/
def Obligations.CancellationEndsTheRun : Prop :=
  ∀ s : State, s.status = .running → (s.cancel || s.move.cancel) = true →
    step s = .next { s.boundary with status := .cancelled }

/-- A fetch with pc + 1 at or above MEM_SIZE (above 0xFFF at the default) is fatal before a byte is read and before pc is
advanced (20_memory.md section 3, the spec's decisions D5 and D19). -/
def Obligations.FetchOutOfRangeIsFatal : Prop :=
  ∀ s : State, s.status = .running → (s.cancel || s.move.cancel) = false → s.pc.toNat + 1 ≥ s.cfg.memSize →
    step s = .next { s.boundary with status := .halted (.fetchOutOfRange s.pc) }

/-- A fatal condition an instruction raises changes the run status alone, and it is the one cause of that instruction, with the
fetch address, the word and, out of range, an address that is no memory cell (exceeds 0xFFF at the default MEM_SIZE;
60_exceptions.md section 1, the spec's decisions D18 to D21). -/
def Obligations.ExecuteFaultWritesNothing : Prop :=
  ∀ (i : Instr) (s t : State) (f : Fatal), s.status = .running → exec i s = .next t → t.status = .halted f →
    t = { s with status := .halted f } ∧
    ((i = .ret ∧ f = .stackUnderflow (s.pc - 2) (encode i)) ∨
     ((∃ a, i = .call a) ∧ f = .stackOverflow (s.pc - 2) (encode i)) ∨
     (((∃ x y n, i = .draw x y n) ∨ (∃ x, i = .binaryCodedDecimal x) ∨ (∃ x, i = .storeRegisters x) ∨
       ∃ x, i = .readIntoRegisters x) ∧
      ∃ ea, ea ≥ s.cfg.memSize ∧ f = .memOutOfRange (s.pc - 2) (encode i) ea))

/-- An address of an I-relative access at or above MEM_SIZE (above 0xFFF at the default) is fatal, the info naming the first
such address, and nothing is written (20_memory.md section 2, the spec's decision D6). -/
def Obligations.MemOutOfRangeWritesNothing : Prop :=
  ∀ (s : State) (i : Instr) (count : Nat),
    ((∃ x y n, i = .draw x y n ∧ count = n.val) ∨ (∃ x, i = .binaryCodedDecimal x ∧ count = 3) ∨
      (∃ x, i = .storeRegisters x ∧ count = x.val + 1) ∨ (∃ x, i = .readIntoRegisters x ∧ count = x.val + 1)) →
    ∀ k, k < count → s.i.toNat + k ≥ s.cfg.memSize → (∀ j, j < k → s.i.toNat + j < s.cfg.memSize) →
      exec i s = .next { s with status := .halted (.memOutOfRange (s.pc - 2) (encode i) (s.i.toNat + k)) }

/-- After an instruction that raised nothing and left changed set, the frame buffer is handed to the display sink: Ok clears
changed, an error is fatal and leaves the instruction's whole effect and changed in place (60_exceptions.md section 4, the spec's
decision D17). A frame that meets an error is in `frames` too (log 10). -/
def Obligations.DisplayContract : Prop :=
  ∀ (u : State) (addr opcode : Word), u.status = .running →
    (u.changed = true → present addr opcode none u = { u with frames := u.frames ++ [u.fb], changed := false }) ∧
    (∀ e, u.changed = true → present addr opcode (some e) u =
      { u with frames := u.frames ++ [u.fb], status := .halted (.renderFailed addr opcode e) }) ∧
    (∀ answer, u.changed = false → present addr opcode answer u = u)

/-- A cycle renders if and only if its instruction is a Draw, or a ClearScreen under CLS_SETS_CHANGED, that raised nothing
(60_exceptions.md section 4, the spec's own inference). changed is false at the start of the cycle, which the invariant says. -/
def Obligations.RendersExactly : Prop :=
  ∀ (s t u : State) (w : Word) (i : Instr), s.status = .running → s.changed = false →
    (s.cancel || s.move.cancel) = false → s.fetchWord = some w → decode s.cfg w = .ok i →
    exec i { s.boundary with pc := s.pc + 2 } = .next u → step s = .next t →
    if u.status = .running ∧ ((∃ x y n, i = .draw x y n) ∨ (i = .clearScreen ∧ s.cfg.clsSetsChanged = true)) then
      t.frames = s.frames ++ [u.fb] ∧ t.fb = u.fb
    else t = u ∧ t.frames = s.frames

/-- Only a running engine has a next cycle, and it always has one (10_state.md section 7, the spec's decision D19). -/
def Obligations.OnlyRunningHasANextCycle : Prop :=
  ∀ s : State,
    (s.status = .running → ∃ t, step s = .next t) ∧
    (∀ f, s.status = .halted f → step s = .fault (.halted f)) ∧
    (s.status = .cancelled → step s = .fault .cancelled)

/-- Rule R29: the quirk flag is configuration: no step writes the configuration, and a step whose instruction is neither
ShiftRight nor ShiftLeft is the same under either setting of the flag. -/
def Obligations.QuirkFlagIsConfiguration : Prop :=
  (∀ s t : State, step s = .next t → t.cfg = s.cfg) ∧
  (∀ (s t : State) (b : Bool),
    (∀ w x y, s.fetchWord = some w → decode s.cfg w ≠ .ok (.shiftRight x y) ∧ decode s.cfg w ≠ .ok (.shiftLeft x y)) →
    step s = .next t →
    step { s with cfg := { s.cfg with legacyShift := b } } = .next { t with cfg := { t.cfg with legacyShift := b } })

/-- The timers are unobservable: two machines that differ in DT and ST alone take steps to machines that differ in DT and ST
alone, so that neither the program nor the frames depend on them (60_exceptions.md section 3, the spec's own inference). -/
def Obligations.TimersAreUnobservable : Prop :=
  ∀ (s t : State) (d e : Byte), step s = .next t →
    ∃ d' e', step { s with dt := d, st := e } = .next { t with dt := d', st := e' }

/-- VF changes only in an instruction that writes it as a flag, which leaves 0x00 or 0x01 in it even where it is also the
destination, or in one that names it as its destination (10_state.md section 1, as 90_conflicts.md C2 settles it). -/
def Obligations.FlagRegisterWriters : Prop :=
  ∀ (i : Instr) (s t : State), s.status = .running → exec i s = .next t → t.status = .running →
    (writesFlag i = true → t.reg 15 = 0x00 ∨ t.reg 15 = 0x01) ∧
    (writesFlag i = false → writesReg i 15 = false → t.reg 15 = s.reg 15)

/-- In any step, I changes only by SetIndexRegister and AddToIndex, the stack only by Call and Return, the frame buffer only by
ClearScreen and Draw, and a byte of memory only by BinaryCodedDecimal and StoreRegisters (10_state.md sections 3, 4 and 6;
20_memory.md section 1). -/
def Obligations.OnlyNamedInstructionsWrite : Prop :=
  ∀ s t : State, step s = .next t →
    (t.i ≠ s.i → ∃ w, s.fetchWord = some w ∧
      ((∃ a, decode s.cfg w = .ok (.setIndexRegister a)) ∨ ∃ x, decode s.cfg w = .ok (.addToIndex x))) ∧
    (t.stack ≠ s.stack → ∃ w, s.fetchWord = some w ∧
      ((∃ a, decode s.cfg w = .ok (.call a)) ∨ decode s.cfg w = .ok .ret)) ∧
    (t.fb ≠ s.fb → ∃ w, s.fetchWord = some w ∧
      (decode s.cfg w = .ok .clearScreen ∨ ∃ x y n, decode s.cfg w = .ok (.draw x y n))) ∧
    (∀ a, t.peek a ≠ s.peek a → ∃ w, s.fetchWord = some w ∧
      ((∃ x, decode s.cfg w = .ok (.binaryCodedDecimal x)) ∨ ∃ x, decode s.cfg w = .ok (.storeRegisters x)))

/-! ### Invariant and reset (10_state.md, 70_reset_and_hazards.md) -/

/-- Every step keeps the invariant `State.Inv`: memory and frames canonical, pc in reach, return addresses a Call can push,
STACK_CAP respected, I within 12 bits without AddToIndex, and changed false while the engine runs. -/
def Obligations.StepKeepsInvariant : Prop :=
  ∀ s t : State, s.Inv → step s = .next t → t.Inv

/-- The invariant holds after reset. -/
def Obligations.ResetMeetsInvariant : Prop := State.reset.Inv

/-- The invariant holds after reset with any parameters and any program image, oversized or not. -/
def Obligations.BootMeetsInvariant : Prop :=
  ∀ (cfg : Config) (image : List Byte), (State.boot cfg image).Inv

/-- The reset values of 10_state.md section 9, and the default parameters of 00_scope.md section 5. Those of I, the stack, the
frame buffer and changed are the spec's decision D12 (log 12), the cancellation flag's is the model's choice (log 21), and the
list of moves is left out. -/
def Obligations.ResetValues : Prop :=
  (∀ x, State.reset.reg x = 0x00) ∧ State.reset.i = 0x0000 ∧ State.reset.pc = 0x0200 ∧ State.reset.stack = [] ∧
  State.reset.dt = 0x00 ∧ State.reset.st = 0x00 ∧ (∀ x y, State.reset.fb.pixel x y = false) ∧
  State.reset.changed = false ∧ State.reset.status = .running ∧ State.reset.cancel = false ∧
  (∀ k : Nat, ∀ h : k < 80, State.reset.peek (0x050 + k) = State.reset.cfg.fontGlyphs[k]) ∧
  (∀ a, a < 0x050 ∨ 0x09F < a → State.reset.peek a = 0x00) ∧
  State.reset.cfg.memSize = 4096 ∧ State.reset.cfg.programBase = 0x200 ∧ State.reset.cfg.maxImage = 3584 ∧
  State.reset.cfg.fontBase = 0x050 ∧ State.reset.cfg.screenW = 64 ∧ State.reset.cfg.screenH = 32 ∧
  State.reset.cfg.hasAddToIndex = false ∧ State.reset.cfg.strictLowNibble = false ∧ State.reset.cfg.stackCap = none ∧
  State.reset.cfg.clsSetsChanged = true ∧ State.reset.cfg.cycleHz = 700

/-- Byte k of an image that fits stands at PROGRAM_BASE + k after reset. Of the cells it does not cover, the 80 from FONT_BASE on
hold the glyphs and every other one 0x00. Every other piece of state has its reset value (20_memory.md section 1,
70_reset_and_hazards.md section 1; the spec's decision D28 for an empty image). -/
def Obligations.ImageIsLoadedVerbatim : Prop :=
  ∀ (cfg : Config) (image : List Byte),
    image.length ≤ cfg.maxImage → image.length ≤ cfg.memSize - cfg.programBase.toNat →
    let base := cfg.programBase.toNat
    let font := cfg.fontBase.toNat
    (∀ k : Nat, ∀ h : k < image.length, (State.boot cfg image).peek (base + k) = image[k]) ∧
    (∀ k : Nat, ∀ h : k < 80, font + k < base ∨ base + image.length ≤ font + k →
      (State.boot cfg image).peek (font + k) = cfg.fontGlyphs[k]) ∧
    (∀ a, a < base ∨ base + image.length ≤ a → a < font ∨ font + 80 ≤ a → (State.boot cfg image).peek a = 0x00) ∧
    State.boot cfg image = { State.reset with cfg := cfg, pc := cfg.programBase, mem := (State.boot cfg image).mem }

/-- Rule R232: an image above MAX_IMAGE bytes is fatal during reset, none of it is written to memory, whose cells hold the glyphs
from FONT_BASE on and 0x00 elsewhere (20_memory.md section 1), and no cycle runs. -/
def Obligations.OversizedImageIsFatal : Prop :=
  ∀ (cfg : Config) (image : List Byte), image.length > cfg.maxImage →
    let font := cfg.fontBase.toNat
    (State.boot cfg image).status = .halted (.imageTooLarge image.length) ∧
    (∀ k : Nat, ∀ h : k < 80, (State.boot cfg image).peek (font + k) = cfg.fontGlyphs[k]) ∧
    (∀ a, a < font ∨ font + 80 ≤ a → (State.boot cfg image).peek a = 0x00) ∧
    (∀ t, step (State.boot cfg image) ≠ .next t)

/-! ### Display (40_display.md) -/

/-- ClearScreen: its word, every pixel false, changed set under CLS_SETS_CHANGED (the spec's decision D10), nothing else. -/
def Obligations.ClearScreenBlanksTheFrame : Prop :=
  (∀ cfg, decode cfg 0x00E0 = .ok .clearScreen) ∧
  ∀ s : State, ∃ f : FrameBuffer, (∀ px py, f.pixel px py = false) ∧
    exec .clearScreen s = .next { s with fb := f, changed := s.cfg.clsSetsChanged || s.changed }

/-- Draw with every row address in memory: its word, the sprite XORed in from the wrapped origin and clipped to the screen, VF 1
exactly if a 1 bit met a lit pixel and else 0 (the spec's decision D8), changed set, nothing else (40_display.md). -/
def Obligations.DrawXorsTheSprite : Prop :=
  ∀ (s : State) (x y : Reg) (n : Height), n.val = 0 ∨ s.i.toNat + n.val ≤ s.cfg.memSize →
    decode s.cfg (wordXYN 0xD000 x y (BitVec.ofNat 4 n.val)) = .ok (.draw x y n) ∧
    ∃ (f : FrameBuffer) (c : Byte),
      exec (.draw x y n) s = .next { s with fb := f, v := s.v.set 15 c, changed := true } ∧
      (∀ px py, f.pixel px py =
        if px < s.cfg.screenW ∧ py < s.cfg.screenH then s.fb.pixel px py ^^ s.spriteBit x y n px py else s.fb.pixel px py) ∧
      (c = 0x01 ∨ c = 0x00) ∧
      (c = 0x01 ↔ ∃ px py, px < s.cfg.screenW ∧ py < s.cfg.screenH ∧
        s.spriteBit x y n px py = true ∧ s.fb.pixel px py = true)

/-- Drawing the same sprite twice at the same position restores the pixels (and the frame buffer as data, in its canonical
form), and the second Draw sets VF exactly if an in-bounds 1 bit targets a pixel unlit before the first (40_display.md, the
spec's own inference). -/
def Obligations.DrawTwiceRestores : Prop :=
  ∀ (s t : State) (x y : Reg) (n : Height), n.val = 0 ∨ s.i.toNat + n.val ≤ s.cfg.memSize →
    exec (.draw x y n) s = .next t → t.reg x = s.reg x → t.reg y = s.reg y →
    ∃ u, exec (.draw x y n) t = .next u ∧ (∀ px py, u.fb.pixel px py = s.fb.pixel px py) ∧
      (FrameBuffer.wf s.cfg.screenW s.cfg.screenH s.fb → u.fb = s.fb) ∧
      (u.reg 15 = 0x01 ↔ ∃ px py, px < s.cfg.screenW ∧ py < s.cfg.screenH ∧
        s.spriteBit x y n px py = true ∧ s.fb.pixel px py = false)

/-- The frame of ClearScreen and Draw: registers but VF in a Draw, I, pc, the stack, the timers, memory, the parameters and the
run status of a Draw that raises nothing stay as they were. -/
def Obligations.DisplayFrame : Prop :=
  ∀ (i : Instr) (s t : State), family i = .display → exec i s = .next t →
    (∀ r, ¬(r = 15 ∧ writesFlag i = true) → t.reg r = s.reg r) ∧ t.i = s.i ∧ t.pc = s.pc ∧ t.stack = s.stack ∧
    t.dt = s.dt ∧ t.st = s.st ∧ (∀ a, t.peek a = s.peek a) ∧ t.cancel = s.cancel ∧ t.cfg = s.cfg ∧ t.env = s.env ∧
    t.frames = s.frames ∧ (t.status = s.status ∨ t = { s with status := t.status })

/-! ### Control flow (41_control_flow.md) -/

/-- Rule R120: Return pops the most recent entry into pc as it is, and on an empty stack it is fatal and writes nothing (what the
diagnostic holds is in `Obligations.ExecuteFaultWritesNothing`). -/
def Obligations.ReturnPopsThePc : Prop :=
  (∀ cfg, decode cfg 0x00EE = .ok .ret) ∧
  (∀ (s : State) (a : Word) (rest : List Word), s.stack = a :: rest →
    exec .ret s = .next { s with pc := a, stack := rest }) ∧
  (∀ s : State, s.stack = [] →
    ∃ addr opcode, exec .ret s = .next { s with status := .halted (.stackUnderflow addr opcode) })

/-- Rule R121: Jump puts the zero-extended address in pc and changes nothing else, whatever the address. -/
def Obligations.JumpSetsThePc : Prop :=
  ∀ (s : State) (a : Addr12),
    decode s.cfg (wordADDR 0x1000 a) = .ok (.jump a) ∧
    exec (.jump a) s = .next { s with pc := BitVec.ofNat 16 a.toNat }

/-- Call pushes the post-fetch pc and jumps, and at depth STACK_CAP it is fatal and writes nothing (41_control_flow.md, the
spec's decision D7). -/
def Obligations.CallPushesAndJumps : Prop :=
  ∀ (s : State) (a : Addr12),
    decode s.cfg (wordADDR 0x2000 a) = .ok (.call a) ∧
    (s.cfg.stackCap ≠ some s.stack.length →
      exec (.call a) s = .next { s with stack := s.pc :: s.stack, pc := BitVec.ofNat 16 a.toNat }) ∧
    (s.cfg.stackCap = some s.stack.length →
      exec (.call a) s = .next { s with status := .halted (.stackOverflow (s.pc - 2) (wordADDR 0x2000 a)) })

/-- Rules R123 and R124: the skips on an immediate add 2 to pc, modulo 2^16, under their condition, and change nothing else. -/
def Obligations.SkipsOnAnImmediate : Prop :=
  ∀ (s : State) (x : Reg) (nn : Byte),
    decode s.cfg (wordXNN 0x3000 x nn) = .ok (.skipEqualX x nn) ∧
    decode s.cfg (wordXNN 0x4000 x nn) = .ok (.skipNotEqualX x nn) ∧
    exec (.skipEqualX x nn) s =
      .next { s with pc := if s.v[x.val] = nn then BitVec.ofNat 16 (s.pc.toNat + 2) else s.pc } ∧
    exec (.skipNotEqualX x nn) s =
      .next { s with pc := if s.v[x.val] ≠ nn then BitVec.ofNat 16 (s.pc.toNat + 2) else s.pc }

/-- Rules R125 and R126: the skips on two registers, whose low nibble is ignored unless STRICT_5_9_LOW_NIBBLE, where a nonzero one
is illegal. -/
def Obligations.SkipsOnTwoRegisters : Prop :=
  ∀ (s : State) (x y : Reg) (n : BitVec 4),
    (decode s.cfg (wordXYN 0x5000 x y n) =
      if n ≠ 0 ∧ s.cfg.strictLowNibble = true then .illegal .unmapped else .ok (.skipEqualXY x y)) ∧
    (decode s.cfg (wordXYN 0x9000 x y n) =
      if n ≠ 0 ∧ s.cfg.strictLowNibble = true then .illegal .unmapped else .ok (.skipNotEqualXY x y)) ∧
    exec (.skipEqualXY x y) s =
      .next { s with pc := if s.v[x.val] = s.v[y.val] then BitVec.ofNat 16 (s.pc.toNat + 2) else s.pc } ∧
    exec (.skipNotEqualXY x y) s =
      .next { s with pc := if s.v[x.val] ≠ s.v[y.val] then BitVec.ofNat 16 (s.pc.toNat + 2) else s.pc }

/-- n Calls followed by n Returns, executed one after another, restore pc and the stack (41_control_flow.md, the spec's own
inference). -/
def Obligations.CallsThenReturnsRestore : Prop :=
  ∀ (s : State) (targets : List Addr12), s.status = .running → s.cfg.stackCap = none →
    execAll (targets.map .call ++ List.replicate targets.length .ret) s = .next s

/-- A self-jump is a fixed point of the machine while the Host is quiet: a step changes nothing (60_exceptions.md section 5, the
spec's decision D31). -/
def Obligations.SelfJumpIsAFixedPoint : Prop :=
  ∀ s : State, s.status = .running → s.cancel = false → s.env = [] → s.changed = false → s.atSelfJump →
    step s = .next s

/-- The frame of Return, Jump, Call and the skips: only pc, and the stack in Return and Call, change. -/
def Obligations.ControlFlowFrame : Prop :=
  ∀ (i : Instr) (s t : State), family i = .controlFlow → exec i s = .next t →
    (∀ r, t.reg r = s.reg r) ∧ t.i = s.i ∧ (i ≠ .ret → (∀ a, i ≠ .call a) → t.stack = s.stack) ∧
    t.dt = s.dt ∧ t.st = s.st ∧ (∀ a, t.peek a = s.peek a) ∧ t.fb = s.fb ∧ t.changed = s.changed ∧
    t.cancel = s.cancel ∧ t.cfg = s.cfg ∧ t.env = s.env ∧ t.frames = s.frames ∧
    (t.status = s.status ∨ t = { s with status := t.status })

/-! ### Registers and ALU (42_register_alu.md) -/

/-- Rules R141 and R142: the immediate forms, AddValueToRegister modulo 256 and without a flag. -/
def Obligations.ImmediateRegisterForms : Prop :=
  ∀ (s : State) (x : Reg) (nn : Byte),
    decode s.cfg (wordXNN 0x6000 x nn) = .ok (.setRegister x nn) ∧
    decode s.cfg (wordXNN 0x7000 x nn) = .ok (.addValueToRegister x nn) ∧
    exec (.setRegister x nn) s = .next { s with v := s.v.set x.val nn } ∧
    exec (.addValueToRegister x nn) s =
      .next { s with v := s.v.set x.val (BitVec.ofNat 8 ((s.v[x.val].toNat + nn.toNat) % 256)) }

/-- Rules R143 to R146: Load, OR, AND and XOR write Vx and no flag. -/
def Obligations.LoadAndBitwiseForms : Prop :=
  ∀ (s : State) (x y : Reg),
    decode s.cfg (wordXYN 0x8000 x y 0x0) = .ok (.load x y) ∧ decode s.cfg (wordXYN 0x8000 x y 0x1) = .ok (.or x y) ∧
    decode s.cfg (wordXYN 0x8000 x y 0x2) = .ok (.and x y) ∧ decode s.cfg (wordXYN 0x8000 x y 0x3) = .ok (.xor x y) ∧
    exec (.load x y) s = .next { s with v := s.v.set x.val s.v[y.val] } ∧
    exec (.or x y) s = .next { s with v := s.v.set x.val (s.v[x.val] ||| s.v[y.val]) } ∧
    exec (.and x y) s = .next { s with v := s.v.set x.val (s.v[x.val] &&& s.v[y.val]) } ∧
    exec (.xor x y) s = .next { s with v := s.v.set x.val (s.v[x.val] ^^^ s.v[y.val]) }

/-- Rule R147: ADD stores the sum modulo 256 and then the carry in VF, also where x is 15. -/
def Obligations.AddWritesSumThenCarry : Prop :=
  ∀ (s : State) (x y : Reg),
    decode s.cfg (wordXYN 0x8000 x y 0x4) = .ok (.add x y) ∧
    ∀ a b : Nat, a = s.v[x.val].toNat → b = s.v[y.val].toNat →
      exec (.add x y) s = .next { s with
        v := (s.v.set x.val (BitVec.ofNat 8 ((a + b) % 256))).set 15 (if a + b > 255 then 0x01 else 0x00) }

/-- Rules R148 and R149: SUB and SUBN store the difference modulo 256 and then no borrow in VF, also where x is 15. -/
def Obligations.SubWritesDifferenceThenNoBorrow : Prop :=
  ∀ (s : State) (x y : Reg),
    decode s.cfg (wordXYN 0x8000 x y 0x5) = .ok (.sub x y) ∧ decode s.cfg (wordXYN 0x8000 x y 0x7) = .ok (.subn x y) ∧
    ∀ a b : Nat, a = s.v[x.val].toNat → b = s.v[y.val].toNat →
      exec (.sub x y) s = .next { s with
        v := (s.v.set x.val (BitVec.ofInt 8 ((a : Int) - b))).set 15 (if a ≥ b then 0x01 else 0x00) } ∧
      exec (.subn x y) s = .next { s with
        v := (s.v.set x.val (BitVec.ofInt 8 ((b : Int) - a))).set 15 (if b ≥ a then 0x01 else 0x00) }

/-- Rules R150, R152 and R153: the shifts take Vy in the legacy setting and Vx in the modern one, and store the shifted byte and
then the bit shifted out in VF, also where x is 15. -/
def Obligations.ShiftsWriteResultThenBitOut : Prop :=
  ∀ (s : State) (x y : Reg),
    decode s.cfg (wordXYN 0x8000 x y 0x6) = .ok (.shiftRight x y) ∧
    decode s.cfg (wordXYN 0x8000 x y 0xE) = .ok (.shiftLeft x y) ∧
    ∀ a : Nat, a = (if s.cfg.legacyShift = true then s.v[y.val].toNat else s.v[x.val].toNat) →
      exec (.shiftRight x y) s = .next { s with
        v := (s.v.set x.val (BitVec.ofNat 8 (a / 2))).set 15 (if a % 2 = 1 then 0x01 else 0x00) } ∧
      exec (.shiftLeft x y) s = .next { s with
        v := (s.v.set x.val (BitVec.ofNat 8 (a * 2 % 256))).set 15 (if a ≥ 128 then 0x01 else 0x00) }

/-- The frame of the register and ALU instructions: only the destination register and, in a flag-writing instruction, VF
change. -/
def Obligations.AluFrame : Prop :=
  ∀ (i : Instr) (s t : State), family i = .alu → exec i s = .next t →
    (∀ r, writesReg i r = false → ¬(r = 15 ∧ writesFlag i = true) → t.reg r = s.reg r) ∧
    (∀ a, t.peek a = s.peek a) ∧ t = { s with v := t.v }

/-! ### Index register and memory (43_index_memory.md) -/

/-- Rule R170: SetIndexRegister puts the zero-extended address in I and changes nothing else. -/
def Obligations.SetIndexRegisterWritesI : Prop :=
  ∀ (s : State) (a : Addr12),
    decode s.cfg (wordADDR 0xA000 a) = .ok (.setIndexRegister a) ∧
    exec (.setIndexRegister a) s = .next { s with i := BitVec.ofNat 16 a.toNat }

/-- Rule R171: AddToIndex adds Vx to I modulo 2^16 and changes nothing else, and its word is illegal without
HAS_ADD_TO_INDEX. -/
def Obligations.AddToIndexAddsToI : Prop :=
  ∀ (s : State) (x : Reg),
    (decode s.cfg (wordXNN 0xF000 x 0x1E) =
      if s.cfg.hasAddToIndex = true then .ok (.addToIndex x) else .illegal .unmapped) ∧
    exec (.addToIndex x) s = .next { s with i := BitVec.ofNat 16 ((s.i.toNat + s.v[x.val].toNat) % 65536) }

/-- BinaryCodedDecimal with its three addresses in memory: the decimal digits of Vx at I, I + 1 and I + 2, every other byte and
every other field as before (43_index_memory.md). -/
def Obligations.BcdStoresTheDigits : Prop :=
  ∀ (s : State) (x : Reg), s.i.toNat + 2 < s.cfg.memSize →
    decode s.cfg (wordXNN 0xF000 x 0x33) = .ok (.binaryCodedDecimal x) ∧
    ∃ t, exec (.binaryCodedDecimal x) s = .next t ∧ t = { s with mem := t.mem } ∧
      s.v[x.val].toNat = 100 * (t.peek s.i.toNat).toNat + 10 * (t.peek (s.i.toNat + 1)).toNat +
        (t.peek (s.i.toNat + 2)).toNat ∧
      (t.peek s.i.toNat).toNat ≤ 2 ∧ (t.peek (s.i.toNat + 1)).toNat ≤ 9 ∧ (t.peek (s.i.toNat + 2)).toNat ≤ 9 ∧
      (∀ a, a < s.i.toNat ∨ s.i.toNat + 2 < a → t.peek a = s.peek a)

/-- StoreRegisters with its addresses in memory: Vk at I + k for k from 0 to x, every other byte and every other field, I among
them, as before (43_index_memory.md, the spec's decision D11). -/
def Obligations.StoreRegistersStoresTheBlock : Prop :=
  ∀ (s : State) (x : Reg), s.i.toNat + x.val < s.cfg.memSize →
    decode s.cfg (wordXNN 0xF000 x 0x55) = .ok (.storeRegisters x) ∧
    ∃ t, exec (.storeRegisters x) s = .next t ∧ t = { s with mem := t.mem } ∧
      (∀ k : Reg, k ≤ x → t.peek (s.i.toNat + k.val) = s.v[k.val]) ∧
      (∀ a, a < s.i.toNat ∨ s.i.toNat + x.val < a → t.peek a = s.peek a)

/-- ReadIntoRegisters with its addresses in memory: Vk becomes the byte at I + k for k from 0 to x, the registers above x and
every other field, I among them, as before (43_index_memory.md, the spec's decision D11). -/
def Obligations.ReadIntoRegistersLoadsTheBlock : Prop :=
  ∀ (s : State) (x : Reg), s.i.toNat + x.val < s.cfg.memSize →
    decode s.cfg (wordXNN 0xF000 x 0x65) = .ok (.readIntoRegisters x) ∧
    ∃ t, exec (.readIntoRegisters x) s = .next t ∧ t = { s with v := t.v } ∧
      ∀ k : Reg, t.v[k.val] = if k ≤ x then s.peek (s.i.toNat + k.val) else s.v[k.val]

/-- StoreRegisters then ReadIntoRegisters at the same I gives back the stored V0..Vx, whatever the register file holds in
between, and leaves the registers above x alone (43_index_memory.md, the spec's own inference). -/
def Obligations.StoreThenReadRoundTrips : Prop :=
  ∀ (s t : State) (x : Reg) (v : Vector Byte 16), s.i.toNat + x.val < s.cfg.memSize → exec (.storeRegisters x) s = .next t →
    ∃ u, exec (.readIntoRegisters x) { t with v := v } = .next u ∧
      ∀ k : Reg, u.v[k.val] = if k ≤ x then s.v[k.val] else v[k.val]

/-- Every byte that BinaryCodedDecimal or StoreRegisters stores is what the very next fetch of its address reads: wherever pc
stands, each half of the next word is the stored byte of its address, or the byte that was there where none was stored
(20_memory.md section 5, the spec's decision D24). -/
def Obligations.StoredBytesAreFetched : Prop :=
  ∀ (s t : State) (i : Instr), ((∃ x, i = .binaryCodedDecimal x) ∨ ∃ x, i = .storeRegisters x) →
    s.i.toNat + storedBytes i ≤ s.cfg.memSize → s.pc.toNat + 1 < s.cfg.memSize → exec i s = .next t →
    let byteAt (a : Nat) : Byte :=
      if s.i.toNat ≤ a ∧ a < s.i.toNat + storedBytes i then s.storedByte i (a - s.i.toNat) else s.peek a
    ∃ w, t.fetchWord = some w ∧ w.toNat = (byteAt s.pc.toNat).toNat * 256 + (byteAt (s.pc.toNat + 1)).toNat

/-- The frame of the index register and memory instructions: registers but those ReadIntoRegisters loads, every byte of memory
outside the bytes stored from I on, pc, the stack, the timers, the frame buffer and changed stay as they were, and I changes only
in SetIndexRegister and AddToIndex. -/
def Obligations.IndexMemoryFrame : Prop :=
  ∀ (i : Instr) (s t : State), family i = .indexMemory → exec i s = .next t →
    (∀ r, writesReg i r = false → t.reg r = s.reg r) ∧
    (∀ a, a < s.i.toNat ∨ s.i.toNat + storedBytes i ≤ a → t.peek a = s.peek a) ∧
    ((∀ a, i ≠ .setIndexRegister a) → (∀ x, i ≠ .addToIndex x) → t.i = s.i) ∧
    t.pc = s.pc ∧ t.stack = s.stack ∧ t.dt = s.dt ∧ t.st = s.st ∧ t.fb = s.fb ∧ t.changed = s.changed ∧
    t.cancel = s.cancel ∧ t.cfg = s.cfg ∧ t.env = s.env ∧ t.frames = s.frames ∧
    (t.status = s.status ∨ t = { s with status := t.status })
end

