-- ==== Sys2Proof/Laws/Decode.lean ====
section
/-! SUPPORT. The fields of an encoded word, the encoder's formats as the formulas of rule R90, and what each format decodes
to. -/

namespace Sys2Proof

open Machine

/-! ### The value of a word -/

theorem toNat_append_add {n m : Nat} (a : BitVec n) (b : BitVec m) : (a ++ b).toNat = a.toNat * 2 ^ m + b.toNat := by
  rw [BitVec.toNat_append, Nat.shiftLeft_eq, Nat.mul_comm, ← Nat.two_pow_add_eq_or_of_lt b.isLt]

theorem encADDR_toNat (op : BitVec 4) (nnn : Addr12) : (encADDR op nnn).toNat = op.toNat * 4096 + nnn.toNat :=
  toNat_append_add op nnn

theorem encXNN_toNat (op : BitVec 4) (x : Reg) (nn : Byte) :
    (encXNN op x nn).toNat = op.toNat * 4096 + x.val * 256 + nn.toNat := by
  have hx : (BitVec.ofFin x : BitVec 4).toNat = x.val := rfl
  have h : (encXNN op x nn).toNat = (op ++ (BitVec.ofFin x : BitVec 4)).toNat * 2 ^ 8 + nn.toNat := toNat_append_add _ _
  rw [h, toNat_append_add, hx]
  omega

theorem encXYN_toNat (op : BitVec 4) (x y : Reg) (n : BitVec 4) :
    (encXYN op x y n).toNat = op.toNat * 4096 + x.val * 256 + y.val * 16 + n.toNat := by
  have hx : (BitVec.ofFin x : BitVec 4).toNat = x.val := rfl
  have hy : (BitVec.ofFin y : BitVec 4).toNat = y.val := rfl
  have h : (encXYN op x y n).toNat =
      (op ++ (BitVec.ofFin x : BitVec 4) ++ (BitVec.ofFin y : BitVec 4)).toNat * 2 ^ 4 + n.toNat := toNat_append_add _ _
  rw [h, toNat_append_add, toNat_append_add, hx, hy]
  omega

/-! ### The value of a field -/

theorem opOf_toNat (w : Word) : (opOf w).toNat = w.toNat / 4096 := by
  have := w.isLt
  simp only [opOf, BitVec.extractLsb'_toNat, Nat.shiftRight_eq_div_pow]
  omega

theorem xOf_val (w : Word) : (xOf w).val = w.toNat / 256 % 16 := by
  have h : (xOf w).val = (w.extractLsb' 8 4).toNat := rfl
  rw [h, BitVec.extractLsb'_toNat, Nat.shiftRight_eq_div_pow]

theorem yOf_val (w : Word) : (yOf w).val = w.toNat / 16 % 16 := by
  have h : (yOf w).val = (w.extractLsb' 4 4).toNat := rfl
  rw [h, BitVec.extractLsb'_toNat, Nat.shiftRight_eq_div_pow]

theorem nOf_toNat (w : Word) : (nOf w).toNat = w.toNat % 16 := by
  simp [nOf, BitVec.extractLsb'_toNat]

theorem nnOf_toNat (w : Word) : (nnOf w).toNat = w.toNat % 256 := by
  simp [nnOf, BitVec.extractLsb'_toNat]

theorem nnnOf_toNat (w : Word) : (nnnOf w).toNat = w.toNat % 4096 := by
  simp [nnnOf, BitVec.extractLsb'_toNat]

/-! ### The fields of an encoded word -/

section fields

variable (op : BitVec 4) (x y : Reg) (n : BitVec 4) (nn : Byte) (nnn : Addr12)

@[simp] theorem opOf_encADDR : opOf (encADDR op nnn) = op := by
  have := nnn.isLt
  exact BitVec.eq_of_toNat_eq (by rw [opOf_toNat, encADDR_toNat]; omega)

@[simp] theorem nnnOf_encADDR : nnnOf (encADDR op nnn) = nnn := by
  have := nnn.isLt
  exact BitVec.eq_of_toNat_eq (by rw [nnnOf_toNat, encADDR_toNat]; omega)

@[simp] theorem opOf_encXNN : opOf (encXNN op x nn) = op := by
  have := nn.isLt
  exact BitVec.eq_of_toNat_eq (by rw [opOf_toNat, encXNN_toNat]; omega)

@[simp] theorem xOf_encXNN : xOf (encXNN op x nn) = x := by
  have := nn.isLt
  exact Fin.ext (by rw [xOf_val, encXNN_toNat]; omega)

@[simp] theorem nnOf_encXNN : nnOf (encXNN op x nn) = nn := by
  have := nn.isLt
  exact BitVec.eq_of_toNat_eq (by rw [nnOf_toNat, encXNN_toNat]; omega)

@[simp] theorem opOf_encXYN : opOf (encXYN op x y n) = op := by
  have := n.isLt
  exact BitVec.eq_of_toNat_eq (by rw [opOf_toNat, encXYN_toNat]; omega)

@[simp] theorem xOf_encXYN : xOf (encXYN op x y n) = x := by
  have := n.isLt
  exact Fin.ext (by rw [xOf_val, encXYN_toNat]; omega)

@[simp] theorem yOf_encXYN : yOf (encXYN op x y n) = y := by
  have := n.isLt
  exact Fin.ext (by rw [yOf_val, encXYN_toNat]; omega)

@[simp] theorem nOf_encXYN : nOf (encXYN op x y n) = n := by
  have := n.isLt
  exact BitVec.eq_of_toNat_eq (by rw [nOf_toNat, encXYN_toNat]; omega)

end fields

/-! ### A word is rebuilt from its fields -/

theorem encADDR_fields (w : Word) : encADDR (opOf w) (nnnOf w) = w :=
  BitVec.eq_of_toNat_eq (by rw [encADDR_toNat, opOf_toNat, nnnOf_toNat]; omega)

theorem encXNN_fields (w : Word) : encXNN (opOf w) (xOf w) (nnOf w) = w :=
  BitVec.eq_of_toNat_eq (by rw [encXNN_toNat, opOf_toNat, xOf_val, nnOf_toNat]; omega)

theorem encXYN_fields (w : Word) : encXYN (opOf w) (xOf w) (yOf w) (nOf w) = w :=
  BitVec.eq_of_toNat_eq (by rw [encXYN_toNat, opOf_toNat, xOf_val, yOf_val, nOf_toNat]; omega)

/-- The two bytes of a word give the word back (rule R57). -/
@[simp] theorem wordOfBytes_bytes (w : Word) : wordOfBytes (highByte w) (lowByte w) = w := by
  apply BitVec.eq_of_toNat_eq
  have := w.isLt
  have hl : (lowByte w).toNat = w.toNat % 256 := by simp [lowByte, BitVec.extractLsb'_toNat]
  have hh : (highByte w).toNat = w.toNat / 256 := by
    simp only [highByte, BitVec.extractLsb'_toNat, Nat.shiftRight_eq_div_pow]
    omega
  rw [wordOfBytes, BitVec.toNat_append, hl, hh, Nat.shiftLeft_eq, Nat.mul_comm,
    ← Nat.two_pow_add_eq_or_of_lt (by omega)]
  omega

/-! ### The formats are the formulas of rule R90 -/

theorem encADDR_eq_wordADDR (op : BitVec 4) (nnn : Addr12) :
    encADDR op nnn = wordADDR (op.setWidth 16 <<< 12) nnn := by
  apply BitVec.eq_of_getLsbD_eq
  intro k hk
  simp only [encADDR, wordADDR, BitVec.getLsbD_append, BitVec.getLsbD_or, BitVec.getLsbD_shiftLeft,
    BitVec.getLsbD_setWidth]
  by_cases h : k < 12
  · simp [h, hk]
  · have := nnn.getLsbD_of_ge k (by omega)
    simp [h, hk, this]
    omega

theorem ofNat_reg_getLsbD (x : Reg) (k : Nat) :
    (BitVec.ofNat 16 x.val).getLsbD k = (BitVec.ofFin x : BitVec 4).getLsbD k := by
  have := x.isLt
  simp [BitVec.getLsbD, Nat.mod_eq_of_lt (show x.val < 65536 by omega)]

theorem encXNN_eq_wordXNN (op : BitVec 4) (x : Reg) (nn : Byte) :
    encXNN op x nn = wordXNN (op.setWidth 16 <<< 12) x nn := by
  apply BitVec.eq_of_getLsbD_eq
  intro k hk
  simp only [encXNN, wordXNN, BitVec.getLsbD_append, BitVec.getLsbD_or, BitVec.getLsbD_shiftLeft,
    BitVec.getLsbD_setWidth]
  rw [ofNat_reg_getLsbD]
  by_cases h : k < 8
  · simp [h, hk, show k < 12 by omega]
  · have := nn.getLsbD_of_ge k (by omega)
    by_cases h' : k < 12
    · simp [h, hk, this, h', show k - 8 < 4 by omega]
    · have h4 := (BitVec.ofFin x : BitVec 4).getLsbD_of_ge (k - 8) (by omega)
      simp [h, hk, this, h', h4, show ¬ k - 8 < 4 by omega, show k - 8 - 4 = k - 12 by omega]
      omega

theorem encXYN_eq_wordXYN (op : BitVec 4) (x y : Reg) (n : BitVec 4) :
    encXYN op x y n = wordXYN (op.setWidth 16 <<< 12) x y n := by
  apply BitVec.eq_of_getLsbD_eq
  intro k hk
  simp only [encXYN, wordXYN, BitVec.getLsbD_append, BitVec.getLsbD_or, BitVec.getLsbD_shiftLeft,
    BitVec.getLsbD_setWidth]
  rw [ofNat_reg_getLsbD, ofNat_reg_getLsbD]
  by_cases h : k < 4
  · simp [h, hk, show k < 12 by omega, show k < 8 by omega]
  · have hn := n.getLsbD_of_ge k (by omega)
    by_cases h' : k < 8
    · simp [h, hk, hn, h', show k < 12 by omega, show k - 4 < 4 by omega]
    · have hy := (BitVec.ofFin y : BitVec 4).getLsbD_of_ge (k - 4) (by omega)
      by_cases h'' : k < 12
      · simp [h, hk, hn, h', hy, h'', show ¬ k - 4 < 4 by omega, show k - 4 - 4 = k - 8 by omega,
          show k - 8 < 4 by omega]
      · have hx := (BitVec.ofFin x : BitVec 4).getLsbD_of_ge (k - 8) (by omega)
        simp [h, hk, hn, h', hy, h'', hx, show ¬ k - 4 < 4 by omega, show k - 4 - 4 = k - 8 by omega,
          show ¬ k - 8 < 4 by omega, show k - 8 - 4 = k - 12 by omega]
        omega

/-! ### What each format decodes to -/

section formats

variable (cfg : Config) (x y : Reg) (n : BitVec 4) (nn : Byte) (nnn : Addr12)

theorem decode_jump : decode cfg (encADDR 0x1#4 nnn) = .ok (.jump nnn) := by
  simp [decode]

theorem decode_call : decode cfg (encADDR 0x2#4 nnn) = .ok (.call nnn) := by
  simp [decode]

theorem decode_setIndexRegister : decode cfg (encADDR 0xA#4 nnn) = .ok (.setIndexRegister nnn) := by
  simp [decode]

theorem decode_skipEqualX : decode cfg (encXNN 0x3#4 x nn) = .ok (.skipEqualX x nn) := by
  simp [decode]

theorem decode_skipNotEqualX : decode cfg (encXNN 0x4#4 x nn) = .ok (.skipNotEqualX x nn) := by
  simp [decode]

theorem decode_setRegister : decode cfg (encXNN 0x6#4 x nn) = .ok (.setRegister x nn) := by
  simp [decode]

theorem decode_addValueToRegister : decode cfg (encXNN 0x7#4 x nn) = .ok (.addValueToRegister x nn) := by
  simp [decode]

theorem decode_skipEqualXY : decode cfg (encXYN 0x5#4 x y n) =
    if n ≠ 0 ∧ cfg.strictLowNibble = true then .illegal .unmapped else .ok (.skipEqualXY x y) := by
  simp [decode, decodeXY]

theorem decode_skipNotEqualXY : decode cfg (encXYN 0x9#4 x y n) =
    if n ≠ 0 ∧ cfg.strictLowNibble = true then .illegal .unmapped else .ok (.skipNotEqualXY x y) := by
  simp [decode, decodeXY]

theorem decode_load : decode cfg (encXYN 0x8#4 x y 0x0#4) = .ok (.load x y) := by
  simp [decode, decodeEight]

theorem decode_or : decode cfg (encXYN 0x8#4 x y 0x1#4) = .ok (.or x y) := by
  simp [decode, decodeEight]

theorem decode_and : decode cfg (encXYN 0x8#4 x y 0x2#4) = .ok (.and x y) := by
  simp [decode, decodeEight]

theorem decode_xor : decode cfg (encXYN 0x8#4 x y 0x3#4) = .ok (.xor x y) := by
  simp [decode, decodeEight]

theorem decode_add : decode cfg (encXYN 0x8#4 x y 0x4#4) = .ok (.add x y) := by
  simp [decode, decodeEight]

theorem decode_sub : decode cfg (encXYN 0x8#4 x y 0x5#4) = .ok (.sub x y) := by
  simp [decode, decodeEight]

theorem decode_shiftRight : decode cfg (encXYN 0x8#4 x y 0x6#4) = .ok (.shiftRight x y) := by
  simp [decode, decodeEight]

theorem decode_subn : decode cfg (encXYN 0x8#4 x y 0x7#4) = .ok (.subn x y) := by
  simp [decode, decodeEight]

theorem decode_shiftLeft : decode cfg (encXYN 0x8#4 x y 0xE#4) = .ok (.shiftLeft x y) := by
  simp [decode, decodeEight]

theorem decode_draw (n : Height) : decode cfg (encXYN 0xD#4 x y (BitVec.ofFin n)) = .ok (.draw x y n) := by
  simp [decode]

theorem decode_binaryCodedDecimal : decode cfg (encXNN 0xF#4 x 0x33#8) = .ok (.binaryCodedDecimal x) := by
  simp [decode, decodeF]

theorem decode_storeRegisters : decode cfg (encXNN 0xF#4 x 0x55#8) = .ok (.storeRegisters x) := by
  simp [decode, decodeF]

theorem decode_readIntoRegisters : decode cfg (encXNN 0xF#4 x 0x65#8) = .ok (.readIntoRegisters x) := by
  simp [decode, decodeF]

theorem decode_addToIndex : decode cfg (encXNN 0xF#4 x 0x1E#8) =
    if cfg.hasAddToIndex = true then .ok (.addToIndex x) else .illegal .unmapped := by
  simp [decode, decodeF]

end formats

end Sys2Proof
end

