-- ==== Sys2Proof/Laws/State.lean ====
section
/-! SUPPORT. One lemma per field per update of Machine/Ops.lean, so that no proof unfolds a record update. -/

namespace Sys2Proof.Machine

variable (s : State)

/-! ### setReg: `V[x] <- b` writes the register file alone. -/

@[simp] theorem State.setReg_v (x : Reg) (b : Byte) : (s.setReg x b).v = s.v.set x.val b := rfl
@[simp] theorem State.setReg_i (x : Reg) (b : Byte) : (s.setReg x b).i = s.i := rfl
@[simp] theorem State.setReg_pc (x : Reg) (b : Byte) : (s.setReg x b).pc = s.pc := rfl
@[simp] theorem State.setReg_stack (x : Reg) (b : Byte) : (s.setReg x b).stack = s.stack := rfl
@[simp] theorem State.setReg_dt (x : Reg) (b : Byte) : (s.setReg x b).dt = s.dt := rfl
@[simp] theorem State.setReg_st (x : Reg) (b : Byte) : (s.setReg x b).st = s.st := rfl
@[simp] theorem State.setReg_mem (x : Reg) (b : Byte) : (s.setReg x b).mem = s.mem := rfl
@[simp] theorem State.setReg_fb (x : Reg) (b : Byte) : (s.setReg x b).fb = s.fb := rfl
@[simp] theorem State.setReg_changed (x : Reg) (b : Byte) : (s.setReg x b).changed = s.changed := rfl
@[simp] theorem State.setReg_status (x : Reg) (b : Byte) : (s.setReg x b).status = s.status := rfl
@[simp] theorem State.setReg_cancel (x : Reg) (b : Byte) : (s.setReg x b).cancel = s.cancel := rfl
@[simp] theorem State.setReg_cfg (x : Reg) (b : Byte) : (s.setReg x b).cfg = s.cfg := rfl
@[simp] theorem State.setReg_env (x : Reg) (b : Byte) : (s.setReg x b).env = s.env := rfl
@[simp] theorem State.setReg_frames (x : Reg) (b : Byte) : (s.setReg x b).frames = s.frames := rfl

/-! ### setI: `I <- w` writes I alone. -/

@[simp] theorem State.setI_v (w : Word) : (s.setI w).v = s.v := rfl
@[simp] theorem State.setI_i (w : Word) : (s.setI w).i = w := rfl
@[simp] theorem State.setI_pc (w : Word) : (s.setI w).pc = s.pc := rfl
@[simp] theorem State.setI_stack (w : Word) : (s.setI w).stack = s.stack := rfl
@[simp] theorem State.setI_dt (w : Word) : (s.setI w).dt = s.dt := rfl
@[simp] theorem State.setI_st (w : Word) : (s.setI w).st = s.st := rfl
@[simp] theorem State.setI_mem (w : Word) : (s.setI w).mem = s.mem := rfl
@[simp] theorem State.setI_fb (w : Word) : (s.setI w).fb = s.fb := rfl
@[simp] theorem State.setI_changed (w : Word) : (s.setI w).changed = s.changed := rfl
@[simp] theorem State.setI_status (w : Word) : (s.setI w).status = s.status := rfl
@[simp] theorem State.setI_cancel (w : Word) : (s.setI w).cancel = s.cancel := rfl
@[simp] theorem State.setI_cfg (w : Word) : (s.setI w).cfg = s.cfg := rfl
@[simp] theorem State.setI_env (w : Word) : (s.setI w).env = s.env := rfl
@[simp] theorem State.setI_frames (w : Word) : (s.setI w).frames = s.frames := rfl

/-! ### goto: `pc <- w` writes pc alone. -/

@[simp] theorem State.goto_v (w : Word) : (s.goto w).v = s.v := rfl
@[simp] theorem State.goto_i (w : Word) : (s.goto w).i = s.i := rfl
@[simp] theorem State.goto_pc (w : Word) : (s.goto w).pc = w := rfl
@[simp] theorem State.goto_stack (w : Word) : (s.goto w).stack = s.stack := rfl
@[simp] theorem State.goto_dt (w : Word) : (s.goto w).dt = s.dt := rfl
@[simp] theorem State.goto_st (w : Word) : (s.goto w).st = s.st := rfl
@[simp] theorem State.goto_mem (w : Word) : (s.goto w).mem = s.mem := rfl
@[simp] theorem State.goto_fb (w : Word) : (s.goto w).fb = s.fb := rfl
@[simp] theorem State.goto_changed (w : Word) : (s.goto w).changed = s.changed := rfl
@[simp] theorem State.goto_status (w : Word) : (s.goto w).status = s.status := rfl
@[simp] theorem State.goto_cancel (w : Word) : (s.goto w).cancel = s.cancel := rfl
@[simp] theorem State.goto_cfg (w : Word) : (s.goto w).cfg = s.cfg := rfl
@[simp] theorem State.goto_env (w : Word) : (s.goto w).env = s.env := rfl
@[simp] theorem State.goto_frames (w : Word) : (s.goto w).frames = s.frames := rfl

/-! ### advance: The advance writes pc alone. -/

@[simp] theorem State.advance_v : s.advance.v = s.v := rfl
@[simp] theorem State.advance_i : s.advance.i = s.i := rfl
@[simp] theorem State.advance_pc : s.advance.pc = s.pc + 2 := rfl
@[simp] theorem State.advance_stack : s.advance.stack = s.stack := rfl
@[simp] theorem State.advance_dt : s.advance.dt = s.dt := rfl
@[simp] theorem State.advance_st : s.advance.st = s.st := rfl
@[simp] theorem State.advance_mem : s.advance.mem = s.mem := rfl
@[simp] theorem State.advance_fb : s.advance.fb = s.fb := rfl
@[simp] theorem State.advance_changed : s.advance.changed = s.changed := rfl
@[simp] theorem State.advance_status : s.advance.status = s.status := rfl
@[simp] theorem State.advance_cancel : s.advance.cancel = s.cancel := rfl
@[simp] theorem State.advance_cfg : s.advance.cfg = s.cfg := rfl
@[simp] theorem State.advance_env : s.advance.env = s.env := rfl
@[simp] theorem State.advance_frames : s.advance.frames = s.frames := rfl

/-! ### push: `push` writes the stack alone. -/

@[simp] theorem State.push_v (w : Word) : (s.push w).v = s.v := rfl
@[simp] theorem State.push_i (w : Word) : (s.push w).i = s.i := rfl
@[simp] theorem State.push_pc (w : Word) : (s.push w).pc = s.pc := rfl
@[simp] theorem State.push_stack (w : Word) : (s.push w).stack = w :: s.stack := rfl
@[simp] theorem State.push_dt (w : Word) : (s.push w).dt = s.dt := rfl
@[simp] theorem State.push_st (w : Word) : (s.push w).st = s.st := rfl
@[simp] theorem State.push_mem (w : Word) : (s.push w).mem = s.mem := rfl
@[simp] theorem State.push_fb (w : Word) : (s.push w).fb = s.fb := rfl
@[simp] theorem State.push_changed (w : Word) : (s.push w).changed = s.changed := rfl
@[simp] theorem State.push_status (w : Word) : (s.push w).status = s.status := rfl
@[simp] theorem State.push_cancel (w : Word) : (s.push w).cancel = s.cancel := rfl
@[simp] theorem State.push_cfg (w : Word) : (s.push w).cfg = s.cfg := rfl
@[simp] theorem State.push_env (w : Word) : (s.push w).env = s.env := rfl
@[simp] theorem State.push_frames (w : Word) : (s.push w).frames = s.frames := rfl

/-! ### poke: `MemWrite` writes memory alone. -/

@[simp] theorem State.poke_v (a : Nat) (b : Byte) : (s.poke a b).v = s.v := rfl
@[simp] theorem State.poke_i (a : Nat) (b : Byte) : (s.poke a b).i = s.i := rfl
@[simp] theorem State.poke_pc (a : Nat) (b : Byte) : (s.poke a b).pc = s.pc := rfl
@[simp] theorem State.poke_stack (a : Nat) (b : Byte) : (s.poke a b).stack = s.stack := rfl
@[simp] theorem State.poke_dt (a : Nat) (b : Byte) : (s.poke a b).dt = s.dt := rfl
@[simp] theorem State.poke_st (a : Nat) (b : Byte) : (s.poke a b).st = s.st := rfl
@[simp] theorem State.poke_mem (a : Nat) (b : Byte) : (s.poke a b).mem = Memory.write (resetByte s.cfg) s.mem a b := rfl
@[simp] theorem State.poke_fb (a : Nat) (b : Byte) : (s.poke a b).fb = s.fb := rfl
@[simp] theorem State.poke_changed (a : Nat) (b : Byte) : (s.poke a b).changed = s.changed := rfl
@[simp] theorem State.poke_status (a : Nat) (b : Byte) : (s.poke a b).status = s.status := rfl
@[simp] theorem State.poke_cancel (a : Nat) (b : Byte) : (s.poke a b).cancel = s.cancel := rfl
@[simp] theorem State.poke_cfg (a : Nat) (b : Byte) : (s.poke a b).cfg = s.cfg := rfl
@[simp] theorem State.poke_env (a : Nat) (b : Byte) : (s.poke a b).env = s.env := rfl
@[simp] theorem State.poke_frames (a : Nat) (b : Byte) : (s.poke a b).frames = s.frames := rfl

/-! ### clearFb: Clearing writes the frame buffer alone. -/

@[simp] theorem State.clearFb_v : s.clearFb.v = s.v := rfl
@[simp] theorem State.clearFb_i : s.clearFb.i = s.i := rfl
@[simp] theorem State.clearFb_pc : s.clearFb.pc = s.pc := rfl
@[simp] theorem State.clearFb_stack : s.clearFb.stack = s.stack := rfl
@[simp] theorem State.clearFb_dt : s.clearFb.dt = s.dt := rfl
@[simp] theorem State.clearFb_st : s.clearFb.st = s.st := rfl
@[simp] theorem State.clearFb_mem : s.clearFb.mem = s.mem := rfl
@[simp] theorem State.clearFb_fb : s.clearFb.fb = FrameBuffer.blank := rfl
@[simp] theorem State.clearFb_changed : s.clearFb.changed = s.changed := rfl
@[simp] theorem State.clearFb_status : s.clearFb.status = s.status := rfl
@[simp] theorem State.clearFb_cancel : s.clearFb.cancel = s.cancel := rfl
@[simp] theorem State.clearFb_cfg : s.clearFb.cfg = s.cfg := rfl
@[simp] theorem State.clearFb_env : s.clearFb.env = s.env := rfl
@[simp] theorem State.clearFb_frames : s.clearFb.frames = s.frames := rfl

/-! ### setFb: Replacing the frame buffer writes it alone. -/

@[simp] theorem State.setFb_v (f : FrameBuffer) : (s.setFb f).v = s.v := rfl
@[simp] theorem State.setFb_i (f : FrameBuffer) : (s.setFb f).i = s.i := rfl
@[simp] theorem State.setFb_pc (f : FrameBuffer) : (s.setFb f).pc = s.pc := rfl
@[simp] theorem State.setFb_stack (f : FrameBuffer) : (s.setFb f).stack = s.stack := rfl
@[simp] theorem State.setFb_dt (f : FrameBuffer) : (s.setFb f).dt = s.dt := rfl
@[simp] theorem State.setFb_st (f : FrameBuffer) : (s.setFb f).st = s.st := rfl
@[simp] theorem State.setFb_mem (f : FrameBuffer) : (s.setFb f).mem = s.mem := rfl
@[simp] theorem State.setFb_fb (f : FrameBuffer) : (s.setFb f).fb = f := rfl
@[simp] theorem State.setFb_changed (f : FrameBuffer) : (s.setFb f).changed = s.changed := rfl
@[simp] theorem State.setFb_status (f : FrameBuffer) : (s.setFb f).status = s.status := rfl
@[simp] theorem State.setFb_cancel (f : FrameBuffer) : (s.setFb f).cancel = s.cancel := rfl
@[simp] theorem State.setFb_cfg (f : FrameBuffer) : (s.setFb f).cfg = s.cfg := rfl
@[simp] theorem State.setFb_env (f : FrameBuffer) : (s.setFb f).env = s.env := rfl
@[simp] theorem State.setFb_frames (f : FrameBuffer) : (s.setFb f).frames = s.frames := rfl

/-! ### setChanged: `changed <- b` writes the changed flag alone. -/

@[simp] theorem State.setChanged_v (b : Bool) : (s.setChanged b).v = s.v := rfl
@[simp] theorem State.setChanged_i (b : Bool) : (s.setChanged b).i = s.i := rfl
@[simp] theorem State.setChanged_pc (b : Bool) : (s.setChanged b).pc = s.pc := rfl
@[simp] theorem State.setChanged_stack (b : Bool) : (s.setChanged b).stack = s.stack := rfl
@[simp] theorem State.setChanged_dt (b : Bool) : (s.setChanged b).dt = s.dt := rfl
@[simp] theorem State.setChanged_st (b : Bool) : (s.setChanged b).st = s.st := rfl
@[simp] theorem State.setChanged_mem (b : Bool) : (s.setChanged b).mem = s.mem := rfl
@[simp] theorem State.setChanged_fb (b : Bool) : (s.setChanged b).fb = s.fb := rfl
@[simp] theorem State.setChanged_changed (b : Bool) : (s.setChanged b).changed = b := rfl
@[simp] theorem State.setChanged_status (b : Bool) : (s.setChanged b).status = s.status := rfl
@[simp] theorem State.setChanged_cancel (b : Bool) : (s.setChanged b).cancel = s.cancel := rfl
@[simp] theorem State.setChanged_cfg (b : Bool) : (s.setChanged b).cfg = s.cfg := rfl
@[simp] theorem State.setChanged_env (b : Bool) : (s.setChanged b).env = s.env := rfl
@[simp] theorem State.setChanged_frames (b : Bool) : (s.setChanged b).frames = s.frames := rfl

/-! ### raise: A fatal condition writes the run status alone (rule R202). -/

@[simp] theorem State.raise_v (f : Fatal) : (s.raise f).v = s.v := rfl
@[simp] theorem State.raise_i (f : Fatal) : (s.raise f).i = s.i := rfl
@[simp] theorem State.raise_pc (f : Fatal) : (s.raise f).pc = s.pc := rfl
@[simp] theorem State.raise_stack (f : Fatal) : (s.raise f).stack = s.stack := rfl
@[simp] theorem State.raise_dt (f : Fatal) : (s.raise f).dt = s.dt := rfl
@[simp] theorem State.raise_st (f : Fatal) : (s.raise f).st = s.st := rfl
@[simp] theorem State.raise_mem (f : Fatal) : (s.raise f).mem = s.mem := rfl
@[simp] theorem State.raise_fb (f : Fatal) : (s.raise f).fb = s.fb := rfl
@[simp] theorem State.raise_changed (f : Fatal) : (s.raise f).changed = s.changed := rfl
@[simp] theorem State.raise_status (f : Fatal) : (s.raise f).status = .halted f := rfl
@[simp] theorem State.raise_cancel (f : Fatal) : (s.raise f).cancel = s.cancel := rfl
@[simp] theorem State.raise_cfg (f : Fatal) : (s.raise f).cfg = s.cfg := rfl
@[simp] theorem State.raise_env (f : Fatal) : (s.raise f).env = s.env := rfl
@[simp] theorem State.raise_frames (f : Fatal) : (s.raise f).frames = s.frames := rfl

/-! ### tick: A tick writes the two timers alone (rule R210). -/

@[simp] theorem State.tick_v : s.tick.v = s.v := rfl
@[simp] theorem State.tick_i : s.tick.i = s.i := rfl
@[simp] theorem State.tick_pc : s.tick.pc = s.pc := rfl
@[simp] theorem State.tick_stack : s.tick.stack = s.stack := rfl
@[simp] theorem State.tick_dt : s.tick.dt = decrement s.dt := rfl
@[simp] theorem State.tick_st : s.tick.st = decrement s.st := rfl
@[simp] theorem State.tick_mem : s.tick.mem = s.mem := rfl
@[simp] theorem State.tick_fb : s.tick.fb = s.fb := rfl
@[simp] theorem State.tick_changed : s.tick.changed = s.changed := rfl
@[simp] theorem State.tick_status : s.tick.status = s.status := rfl
@[simp] theorem State.tick_cancel : s.tick.cancel = s.cancel := rfl
@[simp] theorem State.tick_cfg : s.tick.cfg = s.cfg := rfl
@[simp] theorem State.tick_env : s.tick.env = s.env := rfl
@[simp] theorem State.tick_frames : s.tick.frames = s.frames := rfl

/-! ### setFlag: a flag writes the register file alone -/

@[simp] theorem State.setFlag_v (b : Bool) : (s.setFlag b).v = s.v.set 15 (flagByte b) := rfl
@[simp] theorem State.setFlag_i (b : Bool) : (s.setFlag b).i = s.i := rfl
@[simp] theorem State.setFlag_pc (b : Bool) : (s.setFlag b).pc = s.pc := rfl
@[simp] theorem State.setFlag_stack (b : Bool) : (s.setFlag b).stack = s.stack := rfl
@[simp] theorem State.setFlag_dt (b : Bool) : (s.setFlag b).dt = s.dt := rfl
@[simp] theorem State.setFlag_st (b : Bool) : (s.setFlag b).st = s.st := rfl
@[simp] theorem State.setFlag_mem (b : Bool) : (s.setFlag b).mem = s.mem := rfl
@[simp] theorem State.setFlag_fb (b : Bool) : (s.setFlag b).fb = s.fb := rfl
@[simp] theorem State.setFlag_changed (b : Bool) : (s.setFlag b).changed = s.changed := rfl
@[simp] theorem State.setFlag_status (b : Bool) : (s.setFlag b).status = s.status := rfl
@[simp] theorem State.setFlag_cancel (b : Bool) : (s.setFlag b).cancel = s.cancel := rfl
@[simp] theorem State.setFlag_cfg (b : Bool) : (s.setFlag b).cfg = s.cfg := rfl
@[simp] theorem State.setFlag_env (b : Bool) : (s.setFlag b).env = s.env := rfl
@[simp] theorem State.setFlag_frames (b : Bool) : (s.setFlag b).frames = s.frames := rfl

end Sys2Proof.Machine
end

