-- ==== Sys2Proof/Laws/Memory.lean ====
section
/-! SUPPORT. Memory: what a read gives after a write, and that every memory operation keeps the canonical form. -/

namespace Sys2Proof.Machine

variable {dflt : Nat → Byte}

/-! ### The list of cells -/

theorem Memory.read_erase (m : List Host.Cell) (a a' : Nat) :
    Memory.read dflt (Memory.erase a m) a' = if a' = a then dflt a' else Memory.read dflt m a' := by
  induction m with
  | nil => simp [Memory.erase, Memory.read]
  | cons c m ih =>
    by_cases hc : c.1 = a
    · simp only [Memory.erase, hc, if_true, ih, Memory.read]
      split
      · rfl
      · rw [if_neg (by omega)]
    · simp only [Memory.erase, hc, if_false, Memory.read, ih]
      by_cases h : c.1 = a'
      · rw [if_pos h, if_neg (by omega), if_pos h]
      · rw [if_neg h, if_neg h]

theorem Memory.read_insert (m : List Host.Cell) (c : Host.Cell) (a' : Nat)
    (h : ∀ d ∈ m, d.1 ≠ c.1) :
    Memory.read dflt (Memory.insert c m) a' = if c.1 = a' then c.2 else Memory.read dflt m a' := by
  induction m with
  | nil => simp [Memory.insert, Memory.read]
  | cons d m ih =>
    have hd := h d (by simp)
    have ih := ih fun e he => h e (by simp [he])
    simp only [Memory.insert]
    split
    · simp [Memory.read]
    · simp only [Memory.read, ih]
      by_cases hda : d.1 = a'
      · rw [if_pos hda, if_neg (by omega), if_pos hda]
      · rw [if_neg hda, if_neg hda]

theorem Memory.mem_erase {m : List Host.Cell} {a : Nat} {d : Host.Cell} :
    d ∈ Memory.erase a m ↔ d ∈ m ∧ d.1 ≠ a := by
  induction m with
  | nil => simp [Memory.erase]
  | cons c m ih =>
    simp only [Memory.erase]
    split <;> simp only [List.mem_cons, ih] <;> grind

theorem Memory.mem_insert {m : List Host.Cell} {c d : Host.Cell} :
    d ∈ Memory.insert c m ↔ d = c ∨ d ∈ m := by
  induction m with
  | nil => simp [Memory.insert]
  | cons e m ih =>
    simp only [Memory.insert]
    split <;> simp only [List.mem_cons, ih]
    tauto

/-- A read after a write gives the byte written at its address and the byte before it elsewhere, whatever the list. -/
theorem Memory.read_write (m : List Host.Cell) (a a' : Nat) (b : Byte) :
    Memory.read dflt (Memory.write dflt m a b) a' = if a' = a then b else Memory.read dflt m a' := by
  unfold Memory.write
  split
  · next h =>
    rw [Memory.read_erase]
    split
    · next h' => rw [h', h]
    · rfl
  · rw [Memory.read_insert _ _ _ fun d hd => (Memory.mem_erase.1 hd).2, Memory.read_erase]
    by_cases h' : a' = a
    · simp [h']
    · rw [if_neg (fun h => h' h.symm), if_neg h', if_neg h']

theorem Memory.pairwise_erase {m : List Host.Cell} (a : Nat) (h : m.Pairwise fun c d => c.1 < d.1) :
    (Memory.erase a m).Pairwise fun c d => c.1 < d.1 := by
  induction m with
  | nil => exact h
  | cons c m ih =>
    rw [List.pairwise_cons] at h
    simp only [Memory.erase]
    split
    · exact ih h.2
    · exact List.pairwise_cons.2 ⟨fun d hd => h.1 d (Memory.mem_erase.1 hd).1, ih h.2⟩

theorem Memory.pairwise_insert {m : List Host.Cell} {c : Host.Cell} (h : m.Pairwise fun c d => c.1 < d.1)
    (hc : ∀ d ∈ m, d.1 ≠ c.1) : (Memory.insert c m).Pairwise fun c d => c.1 < d.1 := by
  induction m with
  | nil => simp [Memory.insert]
  | cons e m ih =>
    have he := hc e (by simp)
    have h' := List.pairwise_cons.1 h
    simp only [Memory.insert]
    split
    · next hlt =>
      refine List.pairwise_cons.2 ⟨fun d hd => ?_, h⟩
      rcases List.mem_cons.1 hd with rfl | hd
      · exact hlt
      · exact lt_trans hlt (h'.1 d hd)
    · refine List.pairwise_cons.2 ⟨fun d hd => ?_, ih h'.2 fun d hd => hc d (by simp [hd])⟩
      rcases Memory.mem_insert.1 hd with rfl | hd
      · omega
      · exact h'.1 d hd

/-- A write to a cell that exists keeps the canonical form. -/
theorem Memory.wf_write {size : Nat} {m : List Host.Cell} {a : Nat} (b : Byte) (h : Memory.wf dflt size m) (ha : a < size) :
    Memory.wf dflt size (Memory.write dflt m a b) := by
  have hp := Memory.pairwise_erase a h.1
  unfold Memory.write
  split
  · exact ⟨hp, fun d hd => h.2 d (Memory.mem_erase.1 hd).1⟩
  · next hb =>
    refine ⟨Memory.pairwise_insert hp fun d hd => (Memory.mem_erase.1 hd).2, fun d hd => ?_⟩
    rcases Memory.mem_insert.1 hd with rfl | hd
    · exact ⟨ha, hb⟩
    · exact h.2 d (Memory.mem_erase.1 hd).1

/-! ### Reads of a state -/

/-- What a byte reads as depends on the parameters and the list of cells alone. -/
theorem State.peek_congr {s t : State} (hm : t.mem = s.mem) (hc : t.cfg = s.cfg) (a : Nat) : t.peek a = s.peek a := by
  simp [State.peek, hm, hc]

@[simp] theorem State.peek_poke (s : State) (a a' : Nat) (b : Byte) :
    (s.poke a b).peek a' = if a' = a then b else s.peek a' := by
  simp [State.peek, Memory.read_write]

@[simp] theorem State.peek_setReg (s : State) (x : Reg) (b : Byte) (a : Nat) : (s.setReg x b).peek a = s.peek a := rfl
@[simp] theorem State.peek_setFlag (s : State) (b : Bool) (a : Nat) : (s.setFlag b).peek a = s.peek a := rfl
@[simp] theorem State.peek_setI (s : State) (w : Word) (a : Nat) : (s.setI w).peek a = s.peek a := rfl
@[simp] theorem State.peek_goto (s : State) (w : Word) (a : Nat) : (s.goto w).peek a = s.peek a := rfl
@[simp] theorem State.peek_advance (s : State) (a : Nat) : s.advance.peek a = s.peek a := rfl
@[simp] theorem State.peek_push (s : State) (w : Word) (a : Nat) : (s.push w).peek a = s.peek a := rfl
@[simp] theorem State.peek_clearFb (s : State) (a : Nat) : s.clearFb.peek a = s.peek a := rfl
@[simp] theorem State.peek_setFb (s : State) (f : FrameBuffer) (a : Nat) : (s.setFb f).peek a = s.peek a := rfl
@[simp] theorem State.peek_setChanged (s : State) (b : Bool) (a : Nat) : (s.setChanged b).peek a = s.peek a := rfl
@[simp] theorem State.peek_raise (s : State) (f : Fatal) (a : Nat) : (s.raise f).peek a = s.peek a := rfl

/-! ### Registers -/

theorem State.reg_setReg (s : State) (x r : Reg) (b : Byte) :
    (s.setReg x b).reg r = if r = x then b else s.reg r := by
  simp only [State.reg, State.setReg, Vector.getElem_set, Fin.ext_iff]
  by_cases h : r.val = x.val
  · rw [if_pos h.symm, if_pos h]
  · rw [if_neg (fun e => h e.symm), if_neg h]

theorem State.reg_setFlag (s : State) (r : Reg) (b : Bool) :
    (s.setFlag b).reg r = if r = 15 then flagByte b else s.reg r := s.reg_setReg 15 r _

/-- A register reads the register file alone. -/
theorem State.reg_congr {s t : State} (h : t.v = s.v) (r : Reg) : t.reg r = s.reg r := by simp [State.reg, h]

@[simp] theorem State.reg_setI (s : State) (w : Word) (r : Reg) : (s.setI w).reg r = s.reg r := rfl
@[simp] theorem State.reg_goto (s : State) (w : Word) (r : Reg) : (s.goto w).reg r = s.reg r := rfl
@[simp] theorem State.reg_advance (s : State) (r : Reg) : s.advance.reg r = s.reg r := rfl
@[simp] theorem State.reg_push (s : State) (w : Word) (r : Reg) : (s.push w).reg r = s.reg r := rfl
@[simp] theorem State.reg_poke (s : State) (a : Nat) (b : Byte) (r : Reg) : (s.poke a b).reg r = s.reg r := rfl
@[simp] theorem State.reg_clearFb (s : State) (r : Reg) : s.clearFb.reg r = s.reg r := rfl
@[simp] theorem State.reg_setFb (s : State) (f : FrameBuffer) (r : Reg) : (s.setFb f).reg r = s.reg r := rfl
@[simp] theorem State.reg_setChanged (s : State) (b : Bool) (r : Reg) : (s.setChanged b).reg r = s.reg r := rfl
@[simp] theorem State.reg_raise (s : State) (f : Fatal) (r : Reg) : (s.raise f).reg r = s.reg r := rfl

/-! ### The content of memory before the load (rule R52) -/

theorem resetByte_font (cfg : Config) {k : Nat} (h : k < 80) :
    resetByte cfg (cfg.fontBase.toNat + k) = cfg.fontGlyphs[k] := by
  unfold resetByte
  rw [dif_pos ⟨by omega, by omega⟩]
  simp only [Nat.add_sub_cancel_left]

theorem resetByte_other (cfg : Config) {a : Nat} (h : a < cfg.fontBase.toNat ∨ cfg.fontBase.toNat + 80 ≤ a) :
    resetByte cfg a = 0 := by
  unfold resetByte
  rw [dif_neg (by omega)]

/-! ### The block transfers and the image load -/

/-- The block store writes memory alone. -/
theorem State.storeRegs_frame (s : State) (n : Nat) : ∃ m, s.storeRegs n = { s with mem := m } := by
  induction n with
  | zero => exact ⟨s.mem, rfl⟩
  | succ n ih =>
    obtain ⟨m, h⟩ := ih
    exact ⟨_, by rw [State.storeRegs, h]; rfl⟩

@[simp] theorem State.storeRegs_v (s : State) (n : Nat) : (s.storeRegs n).v = s.v := by
  obtain ⟨m, h⟩ := s.storeRegs_frame n
  rw [h]
@[simp] theorem State.storeRegs_i (s : State) (n : Nat) : (s.storeRegs n).i = s.i := by
  obtain ⟨m, h⟩ := s.storeRegs_frame n
  rw [h]
@[simp] theorem State.storeRegs_pc (s : State) (n : Nat) : (s.storeRegs n).pc = s.pc := by
  obtain ⟨m, h⟩ := s.storeRegs_frame n
  rw [h]
@[simp] theorem State.storeRegs_stack (s : State) (n : Nat) : (s.storeRegs n).stack = s.stack := by
  obtain ⟨m, h⟩ := s.storeRegs_frame n
  rw [h]
@[simp] theorem State.storeRegs_dt (s : State) (n : Nat) : (s.storeRegs n).dt = s.dt := by
  obtain ⟨m, h⟩ := s.storeRegs_frame n
  rw [h]
@[simp] theorem State.storeRegs_st (s : State) (n : Nat) : (s.storeRegs n).st = s.st := by
  obtain ⟨m, h⟩ := s.storeRegs_frame n
  rw [h]
@[simp] theorem State.storeRegs_fb (s : State) (n : Nat) : (s.storeRegs n).fb = s.fb := by
  obtain ⟨m, h⟩ := s.storeRegs_frame n
  rw [h]
@[simp] theorem State.storeRegs_changed (s : State) (n : Nat) : (s.storeRegs n).changed = s.changed := by
  obtain ⟨m, h⟩ := s.storeRegs_frame n
  rw [h]
@[simp] theorem State.storeRegs_status (s : State) (n : Nat) : (s.storeRegs n).status = s.status := by
  obtain ⟨m, h⟩ := s.storeRegs_frame n
  rw [h]
@[simp] theorem State.storeRegs_cancel (s : State) (n : Nat) : (s.storeRegs n).cancel = s.cancel := by
  obtain ⟨m, h⟩ := s.storeRegs_frame n
  rw [h]
@[simp] theorem State.storeRegs_cfg (s : State) (n : Nat) : (s.storeRegs n).cfg = s.cfg := by
  obtain ⟨m, h⟩ := s.storeRegs_frame n
  rw [h]
@[simp] theorem State.storeRegs_env (s : State) (n : Nat) : (s.storeRegs n).env = s.env := by
  obtain ⟨m, h⟩ := s.storeRegs_frame n
  rw [h]
@[simp] theorem State.storeRegs_frames (s : State) (n : Nat) : (s.storeRegs n).frames = s.frames := by
  obtain ⟨m, h⟩ := s.storeRegs_frame n
  rw [h]

/-- The block store puts V[k] at I + k and leaves every other byte as it was. -/
theorem State.peek_storeRegs (s : State) {n : Nat} (hn : n ≤ 16) (a : Nat) :
    (s.storeRegs n).peek a =
      if h : s.i.toNat ≤ a ∧ a < s.i.toNat + n then s.v[a - s.i.toNat]'(by omega) else s.peek a := by
  induction n with
  | zero => rw [dif_neg (by omega), State.storeRegs]
  | succ n ih =>
    rw [State.storeRegs, State.peek_poke, ih (by omega)]
    by_cases ha : a = s.i.toNat + n
    · subst ha
      rw [if_pos rfl, dif_pos (show n < 16 by omega), dif_pos (by omega)]
      congr 1
      omega
    · rw [if_neg ha]
      by_cases h : s.i.toNat ≤ a ∧ a < s.i.toNat + n
      · rw [dif_pos h, dif_pos (by omega)]
      · rw [dif_neg h, dif_neg (by omega)]

/-- The block store keeps the canonical form where its last address exists. -/
theorem State.wf_storeRegs (s : State) {n : Nat} (h : Memory.wf (resetByte s.cfg) s.cfg.memSize s.mem)
    (hn : s.i.toNat + n ≤ s.cfg.memSize) : Memory.wf (resetByte s.cfg) s.cfg.memSize (s.storeRegs n).mem := by
  induction n with
  | zero => exact h
  | succ n ih =>
    rw [State.storeRegs, State.poke_mem, State.storeRegs_cfg]
    exact Memory.wf_write _ (ih (by omega)) (by omega)

/-- The block load writes the register file alone. -/
theorem State.readRegs_frame (s : State) (n : Nat) : ∃ v, s.readRegs n = { s with v := v } := by
  induction n with
  | zero => exact ⟨s.v, rfl⟩
  | succ n ih =>
    obtain ⟨v, h⟩ := ih
    rw [State.readRegs]
    split
    · exact ⟨_, by rw [h]; rfl⟩
    · exact ⟨v, h⟩

@[simp] theorem State.readRegs_i (s : State) (n : Nat) : (s.readRegs n).i = s.i := by
  obtain ⟨m, h⟩ := s.readRegs_frame n
  rw [h]
@[simp] theorem State.readRegs_pc (s : State) (n : Nat) : (s.readRegs n).pc = s.pc := by
  obtain ⟨m, h⟩ := s.readRegs_frame n
  rw [h]
@[simp] theorem State.readRegs_stack (s : State) (n : Nat) : (s.readRegs n).stack = s.stack := by
  obtain ⟨m, h⟩ := s.readRegs_frame n
  rw [h]
@[simp] theorem State.readRegs_dt (s : State) (n : Nat) : (s.readRegs n).dt = s.dt := by
  obtain ⟨m, h⟩ := s.readRegs_frame n
  rw [h]
@[simp] theorem State.readRegs_st (s : State) (n : Nat) : (s.readRegs n).st = s.st := by
  obtain ⟨m, h⟩ := s.readRegs_frame n
  rw [h]
@[simp] theorem State.readRegs_mem (s : State) (n : Nat) : (s.readRegs n).mem = s.mem := by
  obtain ⟨m, h⟩ := s.readRegs_frame n
  rw [h]
@[simp] theorem State.readRegs_fb (s : State) (n : Nat) : (s.readRegs n).fb = s.fb := by
  obtain ⟨m, h⟩ := s.readRegs_frame n
  rw [h]
@[simp] theorem State.readRegs_changed (s : State) (n : Nat) : (s.readRegs n).changed = s.changed := by
  obtain ⟨m, h⟩ := s.readRegs_frame n
  rw [h]
@[simp] theorem State.readRegs_status (s : State) (n : Nat) : (s.readRegs n).status = s.status := by
  obtain ⟨m, h⟩ := s.readRegs_frame n
  rw [h]
@[simp] theorem State.readRegs_cancel (s : State) (n : Nat) : (s.readRegs n).cancel = s.cancel := by
  obtain ⟨m, h⟩ := s.readRegs_frame n
  rw [h]
@[simp] theorem State.readRegs_cfg (s : State) (n : Nat) : (s.readRegs n).cfg = s.cfg := by
  obtain ⟨m, h⟩ := s.readRegs_frame n
  rw [h]
@[simp] theorem State.readRegs_env (s : State) (n : Nat) : (s.readRegs n).env = s.env := by
  obtain ⟨m, h⟩ := s.readRegs_frame n
  rw [h]
@[simp] theorem State.readRegs_frames (s : State) (n : Nat) : (s.readRegs n).frames = s.frames := by
  obtain ⟨m, h⟩ := s.readRegs_frame n
  rw [h]

/-- The block load puts the byte at I + k into V[k] for k below n and leaves the other registers as they were. -/
theorem State.reg_readRegs (s : State) {n : Nat} (hn : n ≤ 16) (r : Reg) :
    (s.readRegs n).reg r = if r.val < n then s.peek (s.i.toNat + r.val) else s.reg r := by
  induction n with
  | zero => rw [if_neg (by omega), State.readRegs]
  | succ n ih =>
    rw [State.readRegs, dif_pos (show n < 16 by omega), State.reg_setReg, ih (by omega)]
    by_cases h : r.val = n
    · rw [if_pos (Fin.ext h), if_pos (by omega), h]
    · rw [if_neg (fun e => h (congrArg Fin.val e))]
      by_cases h' : r.val < n
      · rw [if_pos h', if_pos (by omega)]
      · rw [if_neg h', if_neg (by omega)]

/-- The image load writes memory alone. -/
theorem State.loadImage_frame (s : State) (a : Nat) (bs : List Byte) : ∃ m, s.loadImage a bs = { s with mem := m } := by
  induction bs generalizing s a with
  | nil => exact ⟨s.mem, rfl⟩
  | cons b bs ih =>
    obtain ⟨m, h⟩ := ih (s.poke a b) (a + 1)
    exact ⟨m, by rw [State.loadImage, h]; rfl⟩

@[simp] theorem State.loadImage_v (s : State) (a : Nat) (bs : List Byte) : (s.loadImage a bs).v = s.v := by
  obtain ⟨m, h⟩ := s.loadImage_frame a bs
  rw [h]
@[simp] theorem State.loadImage_i (s : State) (a : Nat) (bs : List Byte) : (s.loadImage a bs).i = s.i := by
  obtain ⟨m, h⟩ := s.loadImage_frame a bs
  rw [h]
@[simp] theorem State.loadImage_pc (s : State) (a : Nat) (bs : List Byte) : (s.loadImage a bs).pc = s.pc := by
  obtain ⟨m, h⟩ := s.loadImage_frame a bs
  rw [h]
@[simp] theorem State.loadImage_stack (s : State) (a : Nat) (bs : List Byte) : (s.loadImage a bs).stack = s.stack := by
  obtain ⟨m, h⟩ := s.loadImage_frame a bs
  rw [h]
@[simp] theorem State.loadImage_dt (s : State) (a : Nat) (bs : List Byte) : (s.loadImage a bs).dt = s.dt := by
  obtain ⟨m, h⟩ := s.loadImage_frame a bs
  rw [h]
@[simp] theorem State.loadImage_st (s : State) (a : Nat) (bs : List Byte) : (s.loadImage a bs).st = s.st := by
  obtain ⟨m, h⟩ := s.loadImage_frame a bs
  rw [h]
@[simp] theorem State.loadImage_fb (s : State) (a : Nat) (bs : List Byte) : (s.loadImage a bs).fb = s.fb := by
  obtain ⟨m, h⟩ := s.loadImage_frame a bs
  rw [h]
@[simp] theorem State.loadImage_changed (s : State) (a : Nat) (bs : List Byte) : (s.loadImage a bs).changed = s.changed := by
  obtain ⟨m, h⟩ := s.loadImage_frame a bs
  rw [h]
@[simp] theorem State.loadImage_status (s : State) (a : Nat) (bs : List Byte) : (s.loadImage a bs).status = s.status := by
  obtain ⟨m, h⟩ := s.loadImage_frame a bs
  rw [h]
@[simp] theorem State.loadImage_cancel (s : State) (a : Nat) (bs : List Byte) : (s.loadImage a bs).cancel = s.cancel := by
  obtain ⟨m, h⟩ := s.loadImage_frame a bs
  rw [h]
@[simp] theorem State.loadImage_cfg (s : State) (a : Nat) (bs : List Byte) : (s.loadImage a bs).cfg = s.cfg := by
  obtain ⟨m, h⟩ := s.loadImage_frame a bs
  rw [h]
@[simp] theorem State.loadImage_env (s : State) (a : Nat) (bs : List Byte) : (s.loadImage a bs).env = s.env := by
  obtain ⟨m, h⟩ := s.loadImage_frame a bs
  rw [h]
@[simp] theorem State.loadImage_frames (s : State) (a : Nat) (bs : List Byte) : (s.loadImage a bs).frames = s.frames := by
  obtain ⟨m, h⟩ := s.loadImage_frame a bs
  rw [h]

/-- The image load puts byte k of the image at a + k and leaves every other byte as it was (rule R231). -/
theorem State.peek_loadImage (s : State) (a : Nat) (bs : List Byte) (a' : Nat) :
    (s.loadImage a bs).peek a' =
      if h : a ≤ a' ∧ a' < a + bs.length then bs[a' - a]'(by omega) else s.peek a' := by
  induction bs generalizing s a with
  | nil => rw [dif_neg (by intro h; simp at h; omega), State.loadImage]
  | cons b bs ih =>
    rw [State.loadImage, ih]
    by_cases h1 : a + 1 ≤ a' ∧ a' < a + 1 + bs.length
    · rw [dif_pos h1, dif_pos (by simp; omega)]
      obtain ⟨k, hk⟩ : ∃ k, a' - a = k + 1 := ⟨a' - a - 1, by omega⟩
      have hk' : a' - (a + 1) = k := by omega
      simp only [hk, hk', List.getElem_cons_succ]
    · rw [dif_neg h1, State.peek_poke]
      by_cases h2 : a' = a
      · subst h2
        rw [if_pos rfl, dif_pos (by simp)]
        simp
      · rw [if_neg h2, dif_neg (by simp; omega)]

/-- The image load keeps the canonical form where the image fits. -/
theorem State.wf_loadImage (s : State) (a : Nat) (bs : List Byte) (h : Memory.wf (resetByte s.cfg) s.cfg.memSize s.mem)
    (ha : a + bs.length ≤ s.cfg.memSize) : Memory.wf (resetByte s.cfg) s.cfg.memSize (s.loadImage a bs).mem := by
  induction bs generalizing s a with
  | nil => exact h
  | cons b bs ih =>
    have ha' : a + (bs.length + 1) ≤ s.cfg.memSize := by simpa using ha
    refine ih (s.poke a b) (a + 1) (Memory.wf_write (size := s.cfg.memSize) _ h (by omega)) ?_
    rw [State.poke_cfg]
    omega

/-! ### The bounds check of rule R54 -/

theorem State.firstOutOfRange_eq_none {s : State} {count : Nat} :
    s.firstOutOfRange count = none ↔ count = 0 ∨ s.i.toNat + count ≤ s.cfg.memSize := by
  unfold State.firstOutOfRange
  split <;> simp only [reduceCtorEq, true_iff, false_iff] at * <;> omega

theorem State.firstOutOfRange_eq_some {s : State} {count ea : Nat} :
    s.firstOutOfRange count = some ea ↔
      count ≠ 0 ∧ s.i.toNat + count > s.cfg.memSize ∧ ea = max s.i.toNat s.cfg.memSize := by
  unfold State.firstOutOfRange
  split
  · next h => simp only [Option.some.injEq]; exact ⟨fun e => ⟨h.1, h.2, e.symm⟩, fun e => e.2.2.symm⟩
  · next h => simp only [reduceCtorEq, false_iff]; exact fun e => h ⟨e.1, e.2.1⟩

/-- The bounds check either goes on, every address existing, or raises MEM_OUT_OF_RANGE and does nothing else. -/
theorem State.guardRange_cases (s : State) (i : Instr) (count : Nat) (go : State) :
    (s.firstOutOfRange count = none ∧ s.guardRange i count go = .next go) ∨
    (∃ ea, s.firstOutOfRange count = some ea ∧
      s.guardRange i count go = .next (s.raise (.memOutOfRange s.fetchAddr (encode i) ea))) := by
  unfold State.guardRange
  cases h : s.firstOutOfRange count with
  | none => exact .inl ⟨rfl, rfl⟩
  | some ea => exact .inr ⟨ea, rfl, rfl⟩

theorem State.guardRange_in (s : State) (i : Instr) {count : Nat} (go : State)
    (h : count = 0 ∨ s.i.toNat + count ≤ s.cfg.memSize) : s.guardRange i count go = .next go := by
  rw [State.guardRange, State.firstOutOfRange_eq_none.2 h]

theorem State.guardRange_out (s : State) (i : Instr) {count : Nat} (go : State) (h0 : count ≠ 0)
    (h : s.i.toNat + count > s.cfg.memSize) :
    s.guardRange i count go =
      .next (s.raise (.memOutOfRange s.fetchAddr (encode i) (max s.i.toNat s.cfg.memSize))) := by
  rw [State.guardRange, State.firstOutOfRange_eq_some.2 ⟨h0, h, rfl⟩]

end Sys2Proof.Machine
end

