-- ==== Sys2Proof/Laws/Display.lean ====
section
/-! SUPPORT. Pixels, and the closed form of a sprite: the bit by bit loop of rule R111 XORs `State.spriteBit` into the frame
buffer and collides where it meets a lit pixel. -/

namespace Sys2Proof.Machine

/-! ### Pixels -/

theorem FrameBuffer.mem_light {p q : Nat × Nat} {f : FrameBuffer} : q ∈ FrameBuffer.light p f ↔ q = p ∨ q ∈ f := by
  induction f with
  | nil => simp [FrameBuffer.light]
  | cons r f ih =>
    rw [FrameBuffer.light]
    split
    · next h => simp [h]
    · split
      · simp
      · simp only [List.mem_cons, ih]
        tauto

theorem FrameBuffer.mem_unlight {p q : Nat × Nat} {f : FrameBuffer} : q ∈ FrameBuffer.unlight p f ↔ q ∈ f ∧ q ≠ p := by
  simp [FrameBuffer.unlight]

/-- A pixel reads as written, and every other one as before. -/
theorem FrameBuffer.pixel_setPixel (f : FrameBuffer) (x y a b : Nat) (v : Bool) :
    (f.setPixel x y v).pixel a b = if a = x ∧ b = y then v else f.pixel a b := by
  unfold FrameBuffer.setPixel FrameBuffer.pixel
  by_cases h : a = x ∧ b = y
  · cases v <;> simp [h, FrameBuffer.mem_light, FrameBuffer.mem_unlight]
  · cases v <;> simp [h, FrameBuffer.mem_light, FrameBuffer.mem_unlight, Prod.ext_iff]

@[simp] theorem FrameBuffer.pixel_blank (x y : Nat) : FrameBuffer.blank.pixel x y = false := rfl

/-- Frame buffers in canonical form with the same pixels are equal. -/
theorem FrameBuffer.ext_pixel {f g : FrameBuffer} (hf : f.Pairwise FrameBuffer.before) (hg : g.Pairwise FrameBuffer.before)
    (h : ∀ x y, f.pixel x y = g.pixel x y) : f = g := by
  have hne : ∀ {l : FrameBuffer}, l.Pairwise FrameBuffer.before → l.Nodup := fun hl =>
    hl.imp fun {p q} hpq e => by subst e; omega
  have hm : ∀ p, p ∈ f ↔ p ∈ g := fun p => by simpa [FrameBuffer.pixel] using h p.1 p.2
  exact ((List.perm_ext_iff_of_nodup (hne hf) (hne hg)).2 hm).eq_of_pairwise
    (fun p q _ _ h1 h2 => absurd h2 (by omega)) hf hg

theorem FrameBuffer.pairwise_light {p : Nat × Nat} {f : FrameBuffer} (h : f.Pairwise FrameBuffer.before) :
    (FrameBuffer.light p f).Pairwise FrameBuffer.before := by
  induction f with
  | nil => simp [FrameBuffer.light]
  | cons q f ih =>
    have hq := List.pairwise_cons.1 h
    rw [FrameBuffer.light]
    split
    · exact h
    · next hne =>
      split
      · next hb =>
        refine List.pairwise_cons.2 ⟨fun r hr => ?_, h⟩
        rcases List.mem_cons.1 hr with rfl | hr
        · exact hb
        · have := hq.1 r hr
          omega
      · next hb =>
        refine List.pairwise_cons.2 ⟨fun r hr => ?_, ih hq.2⟩
        rcases FrameBuffer.mem_light.1 hr with rfl | hr
        · have hne' : ¬(q.1 = r.1 ∧ q.2 = r.2) := fun e => hne (Prod.ext e.1 e.2)
          omega
        · exact hq.1 r hr

/-- A write on the screen keeps the canonical form. -/
theorem FrameBuffer.wf_setPixel {sw sh : Nat} {f : FrameBuffer} {x y : Nat} (v : Bool) (h : FrameBuffer.wf sw sh f)
    (hx : x < sw) (hy : y < sh) : FrameBuffer.wf sw sh (f.setPixel x y v) := by
  cases v with
  | false => exact ⟨h.1.filter _, fun p hp => h.2 p (FrameBuffer.mem_unlight.1 hp).1⟩
  | true =>
    refine ⟨FrameBuffer.pairwise_light h.1, fun p hp => ?_⟩
    rcases FrameBuffer.mem_light.1 hp with rfl | hp
    · exact ⟨hx, hy⟩
    · exact h.2 p hp

theorem FrameBuffer.wf_blank (sw sh : Nat) : FrameBuffer.wf sw sh FrameBuffer.blank := ⟨List.Pairwise.nil, nofun⟩

/-! ### One bit, one row, one sprite. Nothing off the screen changes, and each bit on it is XORed in. -/

section canvas

variable (sw sh : Nat) (c : Canvas)

theorem Canvas.pixel_plot (px py a b : Nat) (bit : Bool) :
    (Canvas.plot sw sh c px py bit).fb.pixel a b =
      (c.fb.pixel a b ^^ (decide ((a < sw ∧ b < sh) ∧ a = px ∧ b = py) && bit)) := by
  unfold Canvas.plot
  by_cases h : px < sw ∧ py < sh ∧ bit = true
  · rw [if_pos h, FrameBuffer.pixel_setPixel]
    by_cases hab : a = px ∧ b = py
    · obtain ⟨rfl, rfl⟩ := hab
      simp [h.1, h.2.1, h.2.2]
    · rw [if_neg hab]
      simp [hab]
  · rw [if_neg h]
    cases bit with
    | false => simp
    | true =>
      have : ¬((a < sw ∧ b < sh) ∧ a = px ∧ b = py) := by
        rintro ⟨⟨h1, h2⟩, rfl, rfl⟩
        exact h ⟨h1, h2, rfl⟩
      simp only [this, decide_false, Bool.false_and, Bool.xor_false]

theorem Canvas.collision_plot (px py : Nat) (bit : Bool) :
    (Canvas.plot sw sh c px py bit).collision = true ↔
      c.collision = true ∨ ((px < sw ∧ py < sh) ∧ bit = true ∧ c.fb.pixel px py = true) := by
  unfold Canvas.plot
  split
  · next h => simp [h]
  · next h => exact ⟨.inl, fun e => e.resolve_right fun e => h ⟨e.1.1, e.1.2, e.2.1⟩⟩

theorem Canvas.wf_plot (px py : Nat) (bit : Bool) (h : FrameBuffer.wf sw sh c.fb) :
    FrameBuffer.wf sw sh (Canvas.plot sw sh c px py bit).fb := by
  unfold Canvas.plot
  split
  · next hp => exact FrameBuffer.wf_setPixel _ h hp.1 hp.2.1
  · exact h

theorem Canvas.pixel_plotRow (row : Byte) (x0 py n a b : Nat) :
    (Canvas.plotRow sw sh c row x0 py n).fb.pixel a b =
      (c.fb.pixel a b ^^ (decide ((a < sw ∧ b < sh) ∧ x0 ≤ a ∧ a < x0 + n ∧ b = py) &&
        row.getLsbD (7 - (a - x0)))) := by
  induction n with
  | zero =>
    have : ¬((a < sw ∧ b < sh) ∧ x0 ≤ a ∧ a < x0 + 0 ∧ b = py) := by omega
    simp only [Canvas.plotRow, this, decide_false, Bool.false_and, Bool.xor_false]
  | succ n ih =>
    rw [Canvas.plotRow, Canvas.pixel_plot, ih]
    by_cases h : a = x0 + n ∧ b = py
    · obtain ⟨rfl, rfl⟩ := h
      simp
    · have h1 : ¬((a < sw ∧ b < sh) ∧ a = x0 + n ∧ b = py) := fun e => h e.2
      have h2 : ((a < sw ∧ b < sh) ∧ x0 ≤ a ∧ a < x0 + (n + 1) ∧ b = py) ↔
          ((a < sw ∧ b < sh) ∧ x0 ≤ a ∧ a < x0 + n ∧ b = py) := by omega
      simp only [h1, h2, decide_false, Bool.false_and, Bool.xor_false]

theorem Canvas.collision_plotRow (row : Byte) (x0 py n : Nat) :
    (Canvas.plotRow sw sh c row x0 py n).collision = true ↔
      c.collision = true ∨ ∃ k < n, (x0 + k < sw ∧ py < sh) ∧ row.getLsbD (7 - k) = true ∧
        c.fb.pixel (x0 + k) py = true := by
  induction n with
  | zero => simp [Canvas.plotRow]
  | succ n ih =>
    have hp : (Canvas.plotRow sw sh c row x0 py n).fb.pixel (x0 + n) py = c.fb.pixel (x0 + n) py := by
      rw [Canvas.pixel_plotRow]
      simp
    rw [Canvas.plotRow, Canvas.collision_plot, ih, hp]
    constructor
    · rintro ((h | ⟨k, hk, h⟩) | h)
      · exact .inl h
      · exact .inr ⟨k, by omega, h⟩
      · exact .inr ⟨n, by omega, h⟩
    · rintro (h | ⟨k, hk, h⟩)
      · exact .inl (.inl h)
      · rcases Nat.lt_succ_iff_lt_or_eq.1 hk with hk | rfl
        · exact .inl (.inr ⟨k, hk, h⟩)
        · exact .inr h

theorem Canvas.wf_plotRow (row : Byte) (x0 py n : Nat) (h : FrameBuffer.wf sw sh c.fb) :
    FrameBuffer.wf sw sh (Canvas.plotRow sw sh c row x0 py n).fb := by
  induction n with
  | zero => exact h
  | succ n ih => exact Canvas.wf_plot sw sh _ _ _ _ ih

theorem Canvas.pixel_plotSprite (rows : Nat → Byte) (x0 y0 n a b : Nat) :
    (Canvas.plotSprite sw sh c rows x0 y0 n).fb.pixel a b =
      (c.fb.pixel a b ^^ (decide ((a < sw ∧ b < sh) ∧ x0 ≤ a ∧ a < x0 + 8 ∧ y0 ≤ b ∧ b < y0 + n) &&
        (rows (b - y0)).getLsbD (7 - (a - x0)))) := by
  induction n with
  | zero =>
    have : ¬((a < sw ∧ b < sh) ∧ x0 ≤ a ∧ a < x0 + 8 ∧ y0 ≤ b ∧ b < y0 + 0) := by omega
    simp only [Canvas.plotSprite, this, decide_false, Bool.false_and, Bool.xor_false]
  | succ n ih =>
    rw [Canvas.plotSprite, Canvas.pixel_plotRow, ih]
    by_cases h : b = y0 + n
    · subst h
      simp
    · have h1 : ¬((a < sw ∧ b < sh) ∧ x0 ≤ a ∧ a < x0 + 8 ∧ b = y0 + n) := fun e => h e.2.2.2
      have h2 : ((a < sw ∧ b < sh) ∧ x0 ≤ a ∧ a < x0 + 8 ∧ y0 ≤ b ∧ b < y0 + (n + 1)) ↔
          ((a < sw ∧ b < sh) ∧ x0 ≤ a ∧ a < x0 + 8 ∧ y0 ≤ b ∧ b < y0 + n) := by omega
      simp only [h1, h2, decide_false, Bool.false_and, Bool.xor_false]

theorem Canvas.collision_plotSprite (rows : Nat → Byte) (x0 y0 n : Nat) :
    (Canvas.plotSprite sw sh c rows x0 y0 n).collision = true ↔
      c.collision = true ∨
        ∃ r < n, ∃ k < 8, (x0 + k < sw ∧ y0 + r < sh) ∧ (rows r).getLsbD (7 - k) = true ∧
          c.fb.pixel (x0 + k) (y0 + r) = true := by
  induction n with
  | zero => simp [Canvas.plotSprite]
  | succ n ih =>
    have hp : ∀ k, (Canvas.plotSprite sw sh c rows x0 y0 n).fb.pixel (x0 + k) (y0 + n) = c.fb.pixel (x0 + k) (y0 + n) := by
      intro k
      rw [Canvas.pixel_plotSprite]
      simp
    rw [Canvas.plotSprite, Canvas.collision_plotRow, ih]
    simp only [hp]
    constructor
    · rintro ((h | ⟨r, hr, h⟩) | h)
      · exact .inl h
      · exact .inr ⟨r, by omega, h⟩
      · exact .inr ⟨n, by omega, h⟩
    · rintro (h | ⟨r, hr, h⟩)
      · exact .inl (.inl h)
      · rcases Nat.lt_succ_iff_lt_or_eq.1 hr with hr | rfl
        · exact .inl (.inr ⟨r, hr, h⟩)
        · exact .inr h

theorem Canvas.wf_plotSprite (rows : Nat → Byte) (x0 y0 n : Nat) (h : FrameBuffer.wf sw sh c.fb) :
    FrameBuffer.wf sw sh (Canvas.plotSprite sw sh c rows x0 y0 n).fb := by
  induction n with
  | zero => exact h
  | succ n ih => exact Canvas.wf_plotRow sw sh _ _ _ _ _ ih

end canvas

/-! ### Draw -/

/-- Draw XORs the sprite's bits into the pixels on the screen, and changes no other (rule R111). -/
theorem State.pixel_drawn (s : State) (x y : Reg) (n : Height) (px py : Nat) :
    (s.drawn x y n).fb.pixel px py =
      (s.fb.pixel px py ^^ (decide (px < s.cfg.screenW ∧ py < s.cfg.screenH) && s.spriteBit x y n px py)) := by
  unfold State.drawn State.spriteBit
  rw [Canvas.pixel_plotSprite, Bool.decide_and, Bool.and_assoc]

/-- Draw collides exactly where a 1 bit of the sprite meets a lit pixel of the screen (rule R111). -/
theorem State.collision_drawn (s : State) (x y : Reg) (n : Height) :
    (s.drawn x y n).collision = true ↔
      ∃ px py, px < s.cfg.screenW ∧ py < s.cfg.screenH ∧ s.spriteBit x y n px py = true ∧ s.fb.pixel px py = true := by
  unfold State.drawn
  rw [Canvas.collision_plotSprite]
  constructor
  · rintro (h | ⟨r, hr, k, hk, hin, hb, hp⟩)
    · cases h
    · refine ⟨_, _, hin.1, hin.2, ?_, hp⟩
      simp [State.spriteBit, hr, hk, hb]
  · rintro ⟨px, py, hx, hy, hb, hp⟩
    simp only [State.spriteBit, Bool.and_eq_true, decide_eq_true_eq] at hb
    obtain ⟨⟨h1, h2, h3, h4⟩, hb⟩ := hb
    refine .inr ⟨py - s.originY y, by omega, px - s.originX x, by omega, ?_⟩
    rw [Nat.add_sub_cancel' h1, Nat.add_sub_cancel' h3]
    exact ⟨⟨hx, hy⟩, hb, hp⟩

/-- Draw keeps the canonical form. -/
theorem State.wf_drawn (s : State) (x y : Reg) (n : Height) (h : FrameBuffer.wf s.cfg.screenW s.cfg.screenH s.fb) :
    FrameBuffer.wf s.cfg.screenW s.cfg.screenH (s.drawn x y n).fb := Canvas.wf_plotSprite _ _ _ _ _ _ _ h

end Sys2Proof.Machine
end

