-- ==== Sys2Proof/Laws/PerInstr.lean ====
section
/-! SUPPORT. Per-instruction statements: the canonical word of every instruction lies in its own row of
spec/opcode_table.json, whatever its operands. -/

namespace Sys2Proof

/-- The bits of the mask 0xF000 are the family nibble. -/
theorem and_F000 (w : Word) : w &&& 0xF000#16 = (opOf w).setWidth 16 <<< 12 := by
  apply BitVec.eq_of_getLsbD_eq
  intro k hk
  interval_cases k <;> simp [opOf]

/-- The bits of the mask 0xF00F are the family nibble and the function nibble. -/
theorem and_F00F (w : Word) : w &&& 0xF00F#16 = (opOf w).setWidth 16 <<< 12 ||| (nOf w).setWidth 16 := by
  apply BitVec.eq_of_getLsbD_eq
  intro k hk
  interval_cases k <;> simp [opOf, nOf]

/-- The bits of the mask 0xF0FF are the family nibble and the function byte. -/
theorem and_F0FF (w : Word) : w &&& 0xF0FF#16 = (opOf w).setWidth 16 <<< 12 ||| (nnOf w).setWidth 16 := by
  apply BitVec.eq_of_getLsbD_eq
  intro k hk
  interval_cases k <;> simp [opOf, nnOf]

end Sys2Proof

namespace Sys2Proof.Laws.TableRow

/-- The canonical word of `i` matches the mask and match of its row. -/
def Statement (i : Instr) : Prop := encode i &&& (tableRow i).1 = (tableRow i).2

theorem clearScreen : Statement .clearScreen := rfl
theorem ret : Statement .ret := rfl
theorem jump (nnn : Addr12) : Statement (.jump nnn) := by simp [Statement, encode, tableRow, and_F000]
theorem call (nnn : Addr12) : Statement (.call nnn) := by simp [Statement, encode, tableRow, and_F000]
theorem skipEqualX (x : Reg) (nn : Byte) : Statement (.skipEqualX x nn) := by simp [Statement, encode, tableRow, and_F000]
theorem skipNotEqualX (x : Reg) (nn : Byte) : Statement (.skipNotEqualX x nn) := by simp [Statement, encode, tableRow, and_F000]
theorem skipEqualXY (x y : Reg) : Statement (.skipEqualXY x y) := by simp [Statement, encode, tableRow, and_F000]
theorem setRegister (x : Reg) (nn : Byte) : Statement (.setRegister x nn) := by simp [Statement, encode, tableRow, and_F000]
theorem addValueToRegister (x : Reg) (nn : Byte) : Statement (.addValueToRegister x nn) := by simp [Statement, encode, tableRow, and_F000]
theorem load (x y : Reg) : Statement (.load x y) := by simp [Statement, encode, tableRow, and_F00F]
theorem or (x y : Reg) : Statement (.or x y) := by simp [Statement, encode, tableRow, and_F00F]
theorem and (x y : Reg) : Statement (.and x y) := by simp [Statement, encode, tableRow, and_F00F]
theorem xor (x y : Reg) : Statement (.xor x y) := by simp [Statement, encode, tableRow, and_F00F]
theorem add (x y : Reg) : Statement (.add x y) := by simp [Statement, encode, tableRow, and_F00F]
theorem sub (x y : Reg) : Statement (.sub x y) := by simp [Statement, encode, tableRow, and_F00F]
theorem shiftRight (x y : Reg) : Statement (.shiftRight x y) := by simp [Statement, encode, tableRow, and_F00F]
theorem subn (x y : Reg) : Statement (.subn x y) := by simp [Statement, encode, tableRow, and_F00F]
theorem shiftLeft (x y : Reg) : Statement (.shiftLeft x y) := by simp [Statement, encode, tableRow, and_F00F]
theorem skipNotEqualXY (x y : Reg) : Statement (.skipNotEqualXY x y) := by simp [Statement, encode, tableRow, and_F000]
theorem setIndexRegister (nnn : Addr12) : Statement (.setIndexRegister nnn) := by simp [Statement, encode, tableRow, and_F000]
theorem draw (x y : Reg) (n : Height) : Statement (.draw x y n) := by simp [Statement, encode, tableRow, and_F000]
theorem binaryCodedDecimal (x : Reg) : Statement (.binaryCodedDecimal x) := by simp [Statement, encode, tableRow, and_F0FF]
theorem storeRegisters (x : Reg) : Statement (.storeRegisters x) := by simp [Statement, encode, tableRow, and_F0FF]
theorem readIntoRegisters (x : Reg) : Statement (.readIntoRegisters x) := by simp [Statement, encode, tableRow, and_F0FF]
theorem addToIndex (x : Reg) : Statement (.addToIndex x) := by simp [Statement, encode, tableRow, and_F0FF]

end Sys2Proof.Laws.TableRow
end

