-- ==== Sys2Proof/Laws/Step.lean ====
section
/-! SUPPORT. What `exec` and `step` can answer, said once: every instruction answers a next state, which fields none of them
writes, and the cases of a step. -/

namespace Sys2Proof.Machine

/-! ### exec -/

/-- `execReturn` pops or raises. -/
theorem execReturn_cases (s : State) :
    (∃ a rest, s.stack = a :: rest ∧ execReturn s = .next { s with pc := a, stack := rest }) ∨
    (s.stack = [] ∧ execReturn s = .next (s.raise (.stackUnderflow s.fetchAddr (encode .ret)))) := by
  unfold execReturn
  cases h : s.stack with
  | nil => exact .inr ⟨rfl, rfl⟩
  | cons a rest => exact .inl ⟨a, rest, rfl, rfl⟩

/-- `execCall` pushes and jumps, or raises. -/
theorem execCall_cases (nnn : Addr12) (s : State) :
    (s.cfg.stackCap ≠ some s.stack.length ∧ execCall nnn s = .next ((s.push s.pc).goto (zextAddr nnn))) ∨
    (s.cfg.stackCap = some s.stack.length ∧
      execCall nnn s = .next (s.raise (.stackOverflow s.fetchAddr (encode (.call nnn))))) := by
  unfold execCall
  split
  · next h => exact .inr ⟨h, rfl⟩
  · next h => exact .inl ⟨h, rfl⟩

/-- A skip writes pc alone. -/
theorem State.skipIf_eq (s : State) (c : Bool) : s.skipIf c = s.goto (if c then s.pc + 2 else s.pc) := by
  cases c <;> rfl

/-- The state Draw leaves where its sprite's addresses exist. -/
def State.afterDraw (s : State) (x y : Reg) (n : Height) : State :=
  ((s.setFb (s.drawn x y n).fb).setFlag (s.drawn x y n).collision).setChanged true

/-- The state BinaryCodedDecimal leaves where its addresses exist. -/
def State.afterBcd (s : State) (x : Reg) : State :=
  ((s.poke s.i.toNat (hundreds (s.reg x))).poke (s.i.toNat + 1) (tens (s.reg x))).poke (s.i.toNat + 2) (units (s.reg x))

/-- Everything an instruction can answer: its own effect, or a fatal condition that writes the run status alone. -/
theorem exec_cases (i : Instr) (s : State) :
    (∃ f, exec i s = .next (s.raise f)) ∨
    (match i with
      | .clearScreen => exec i s = .next (if s.cfg.clsSetsChanged then s.clearFb.setChanged true else s.clearFb)
      | .ret => ∃ a rest, s.stack = a :: rest ∧ exec i s = .next { s with pc := a, stack := rest }
      | .jump nnn => exec i s = .next (s.goto (zextAddr nnn))
      | .call nnn =>
        s.cfg.stackCap ≠ some s.stack.length ∧ exec i s = .next ((s.push s.pc).goto (zextAddr nnn))
      | .skipEqualX _ _ | .skipNotEqualX _ _ | .skipEqualXY _ _ | .skipNotEqualXY _ _ =>
        exec i s = .next s ∨ exec i s = .next s.advance
      | .setRegister x _ | .addValueToRegister x _ | .load x _ | .or x _ | .and x _ | .xor x _ =>
        ∃ b, exec i s = .next (s.setReg x b)
      | .add x _ | .sub x _ | .subn x _ | .shiftRight x _ | .shiftLeft x _ =>
        ∃ b c, exec i s = .next ((s.setReg x b).setFlag c)
      | .setIndexRegister nnn => exec i s = .next (s.setI (zextAddr nnn))
      | .addToIndex x => exec i s = .next (s.setI (s.i + (s.reg x).setWidth 16))
      | .draw x y n => s.firstOutOfRange n.val = none ∧ exec i s = .next (s.afterDraw x y n)
      | .binaryCodedDecimal x => s.firstOutOfRange 3 = none ∧ exec i s = .next (s.afterBcd x)
      | .storeRegisters x => s.firstOutOfRange (x.val + 1) = none ∧ exec i s = .next (s.storeRegs (x.val + 1))
      | .readIntoRegisters x => s.firstOutOfRange (x.val + 1) = none ∧ exec i s = .next (s.readRegs (x.val + 1))) := by
  have skip : ∀ c, (Host.Outcome.next (s.skipIf c) : Result) = .next s ∨
      (Host.Outcome.next (s.skipIf c) : Result) = .next s.advance := by
    intro c
    cases c
    · exact .inl rfl
    · exact .inr rfl
  have guard : ∀ (i : Instr) (n : Nat) (go : State), (∃ f, s.guardRange i n go = .next (s.raise f)) ∨
      (s.firstOutOfRange n = none ∧ s.guardRange i n go = .next go) := by
    intro i n go
    rcases s.guardRange_cases i n go with h | ⟨ea, _, h⟩
    · exact .inr h
    · exact .inl ⟨_, h⟩
  cases i with
  | clearScreen | jump | setIndexRegister | addToIndex => exact .inr rfl
  | ret =>
    rcases execReturn_cases s with h | h
    · exact .inr h
    · exact .inl ⟨_, h.2⟩
  | call nnn =>
    rcases execCall_cases nnn s with h | h
    · exact .inr h
    · exact .inl ⟨_, h.2⟩
  | skipEqualX | skipNotEqualX | skipEqualXY | skipNotEqualXY => exact .inr (skip _)
  | setRegister | addValueToRegister | load | or | and | xor => exact .inr ⟨_, rfl⟩
  | add | sub | subn | shiftRight | shiftLeft => exact .inr ⟨_, _, rfl⟩
  | draw x y n => exact guard _ _ _
  | binaryCodedDecimal | storeRegisters | readIntoRegisters => exact guard _ _ _

/-- Every instruction answers a next state. -/
theorem exec_next (i : Instr) (s : State) : ∃ t, exec i s = .next t := by
  rcases exec_cases i s with ⟨f, h⟩ | h
  · exact ⟨_, h⟩
  · cases i with
    | ret => obtain ⟨_, _, _, h⟩ := h; exact ⟨_, h⟩
    | call => exact ⟨_, h.2⟩
    | skipEqualX | skipNotEqualX | skipEqualXY | skipNotEqualXY => rcases h with h | h <;> exact ⟨_, h⟩
    | setRegister | addValueToRegister | load | or | and | xor => obtain ⟨_, h⟩ := h; exact ⟨_, h⟩
    | add | sub | subn | shiftRight | shiftLeft => obtain ⟨_, _, h⟩ := h; exact ⟨_, h⟩
    | draw | binaryCodedDecimal | storeRegisters | readIntoRegisters => exact ⟨_, h.2⟩
    | clearScreen | jump | setIndexRegister | addToIndex => exact ⟨_, h⟩

/-- The fields no instruction writes, and the one that only a fatal condition writes. -/
structure Untouched (s t : State) : Prop where
  dt : t.dt = s.dt
  st : t.st = s.st
  cancel : t.cancel = s.cancel
  cfg : t.cfg = s.cfg
  env : t.env = s.env
  frames : t.frames = s.frames
  status : t.status = s.status ∨ ∃ f, t = s.raise f

theorem Untouched.raise (s : State) (f : Fatal) : Untouched s (s.raise f) :=
  ⟨rfl, rfl, rfl, rfl, rfl, rfl, .inr ⟨f, rfl⟩⟩

theorem exec_untouched {i : Instr} {s t : State} (h : exec i s = .next t) : Untouched s t := by
  rcases exec_cases i s with ⟨f, h'⟩ | h'
  · rw [h'] at h
    cases h
    exact Untouched.raise s f
  · cases i with
    | clearScreen =>
      rw [h'] at h
      cases h
      split <;> exact ⟨rfl, rfl, rfl, rfl, rfl, rfl, .inl rfl⟩
    | ret =>
      obtain ⟨_, _, _, h'⟩ := h'
      rw [h'] at h
      cases h
      exact ⟨rfl, rfl, rfl, rfl, rfl, rfl, .inl rfl⟩
    | jump | setIndexRegister | addToIndex =>
      rw [h'] at h
      cases h
      exact ⟨rfl, rfl, rfl, rfl, rfl, rfl, .inl rfl⟩
    | call | draw | binaryCodedDecimal =>
      rw [h'.2] at h
      cases h
      exact ⟨rfl, rfl, rfl, rfl, rfl, rfl, .inl rfl⟩
    | storeRegisters | readIntoRegisters =>
      rw [h'.2] at h
      cases h
      exact ⟨by simp, by simp, by simp, by simp, by simp, by simp, .inl (by simp)⟩
    | skipEqualX | skipNotEqualX | skipEqualXY | skipNotEqualXY =>
      rcases h' with h' | h' <;>
      · rw [h'] at h
        cases h
        exact ⟨rfl, rfl, rfl, rfl, rfl, rfl, .inl rfl⟩
    | setRegister | addValueToRegister | load | or | and | xor =>
      obtain ⟨_, h'⟩ := h'
      rw [h'] at h
      cases h
      exact ⟨rfl, rfl, rfl, rfl, rfl, rfl, .inl rfl⟩
    | add | sub | subn | shiftRight | shiftLeft =>
      obtain ⟨_, _, h'⟩ := h'
      rw [h'] at h
      cases h
      exact ⟨rfl, rfl, rfl, rfl, rfl, rfl, .inl rfl⟩

/-! ### The boundary -/

/-- Ticks write the two timers alone. -/
theorem State.ticks_frame (n : Nat) (s : State) : ∃ d e, State.ticks n s = { s with dt := d, st := e } := by
  induction n generalizing s with
  | zero => exact ⟨s.dt, s.st, rfl⟩
  | succ n ih =>
    obtain ⟨d, e, h⟩ := ih s.tick
    exact ⟨d, e, by rw [State.ticks, h]; rfl⟩

@[simp] theorem State.ticks_v (n : Nat) (s : State) : (State.ticks n s).v = s.v := by
  obtain ⟨d, e, h⟩ := s.ticks_frame n
  rw [h]
@[simp] theorem State.ticks_i (n : Nat) (s : State) : (State.ticks n s).i = s.i := by
  obtain ⟨d, e, h⟩ := s.ticks_frame n
  rw [h]
@[simp] theorem State.ticks_pc (n : Nat) (s : State) : (State.ticks n s).pc = s.pc := by
  obtain ⟨d, e, h⟩ := s.ticks_frame n
  rw [h]
@[simp] theorem State.ticks_stack (n : Nat) (s : State) : (State.ticks n s).stack = s.stack := by
  obtain ⟨d, e, h⟩ := s.ticks_frame n
  rw [h]
@[simp] theorem State.ticks_mem (n : Nat) (s : State) : (State.ticks n s).mem = s.mem := by
  obtain ⟨d, e, h⟩ := s.ticks_frame n
  rw [h]
@[simp] theorem State.ticks_fb (n : Nat) (s : State) : (State.ticks n s).fb = s.fb := by
  obtain ⟨d, e, h⟩ := s.ticks_frame n
  rw [h]
@[simp] theorem State.ticks_changed (n : Nat) (s : State) : (State.ticks n s).changed = s.changed := by
  obtain ⟨d, e, h⟩ := s.ticks_frame n
  rw [h]
@[simp] theorem State.ticks_status (n : Nat) (s : State) : (State.ticks n s).status = s.status := by
  obtain ⟨d, e, h⟩ := s.ticks_frame n
  rw [h]
@[simp] theorem State.ticks_cancel (n : Nat) (s : State) : (State.ticks n s).cancel = s.cancel := by
  obtain ⟨d, e, h⟩ := s.ticks_frame n
  rw [h]
@[simp] theorem State.ticks_cfg (n : Nat) (s : State) : (State.ticks n s).cfg = s.cfg := by
  obtain ⟨d, e, h⟩ := s.ticks_frame n
  rw [h]
@[simp] theorem State.ticks_env (n : Nat) (s : State) : (State.ticks n s).env = s.env := by
  obtain ⟨d, e, h⟩ := s.ticks_frame n
  rw [h]
@[simp] theorem State.ticks_frames (n : Nat) (s : State) : (State.ticks n s).frames = s.frames := by
  obtain ⟨d, e, h⟩ := s.ticks_frame n
  rw [h]

/-- `n` ticks count a timer down to 0 (rule R210). -/
theorem State.ticks_dt (n : Nat) (s : State) : (State.ticks n s).dt.toNat = s.dt.toNat - n := by
  induction n generalizing s with
  | zero => rfl
  | succ n ih =>
    rw [State.ticks, ih, State.tick_dt, decrement]
    split
    · next h => simp [h]
    · next h =>
      have : s.dt.toNat ≠ 0 := fun e => h (BitVec.eq_of_toNat_eq e)
      have := s.dt.isLt
      have h1 : (1 : Byte).toNat = 1 := rfl
      rw [BitVec.toNat_sub, h1]
      omega

theorem State.ticks_st (n : Nat) (s : State) : (State.ticks n s).st.toNat = s.st.toNat - n := by
  induction n generalizing s with
  | zero => rfl
  | succ n ih =>
    rw [State.ticks, ih, State.tick_st, decrement]
    split
    · next h => simp [h]
    · next h =>
      have : s.st.toNat ≠ 0 := fun e => h (BitVec.eq_of_toNat_eq e)
      have := s.st.isLt
      have h1 : (1 : Byte).toNat = 1 := rfl
      rw [BitVec.toNat_sub, h1]
      omega

section boundary

variable (s : State)

/-! ### boundary: the timers, the cancellation flag and the list of moves alone -/

@[simp] theorem State.boundary_v : s.boundary.v = s.v := by simp [State.boundary]
@[simp] theorem State.boundary_i : s.boundary.i = s.i := by simp [State.boundary]
@[simp] theorem State.boundary_pc : s.boundary.pc = s.pc := by simp [State.boundary]
@[simp] theorem State.boundary_stack : s.boundary.stack = s.stack := by simp [State.boundary]
@[simp] theorem State.boundary_mem : s.boundary.mem = s.mem := by simp [State.boundary]
@[simp] theorem State.boundary_fb : s.boundary.fb = s.fb := by simp [State.boundary]
@[simp] theorem State.boundary_changed : s.boundary.changed = s.changed := by simp [State.boundary]
@[simp] theorem State.boundary_status : s.boundary.status = s.status := by simp [State.boundary]
@[simp] theorem State.boundary_cancel : s.boundary.cancel = (s.cancel || s.move.cancel) := rfl
@[simp] theorem State.boundary_cfg : s.boundary.cfg = s.cfg := by simp [State.boundary]
@[simp] theorem State.boundary_env : s.boundary.env = s.env.tail := rfl
@[simp] theorem State.boundary_frames : s.boundary.frames = s.frames := by simp [State.boundary]

@[simp] theorem State.peek_boundary (a : Nat) : s.boundary.peek a = s.peek a :=
  State.peek_congr s.boundary_mem s.boundary_cfg a

theorem State.boundary_dt_toNat : s.boundary.dt.toNat = s.dt.toNat - s.move.ticks := s.ticks_dt s.move.ticks

theorem State.boundary_st_toNat : s.boundary.st.toNat = s.st.toNat - s.move.ticks := s.ticks_st s.move.ticks

@[simp] theorem State.fetchWord_boundary : s.boundary.fetchWord = s.fetchWord := by simp [State.fetchWord]

end boundary

/-! ### The render phase -/

/-- What the render phase can do to the state an instruction leaves. -/
theorem present_cases (addr opcode : Word) (answer : Option RenderError) (u : State) :
    (¬(u.status = .running ∧ u.changed = true) ∧ present addr opcode answer u = u) ∨
    (u.status = .running ∧ u.changed = true ∧ answer = none ∧
      present addr opcode answer u = { u with frames := u.frames ++ [u.fb], changed := false }) ∨
    (∃ e, u.status = .running ∧ u.changed = true ∧ answer = some e ∧
      present addr opcode answer u =
        { u with frames := u.frames ++ [u.fb], status := .halted (.renderFailed addr opcode e) }) := by
  by_cases h : u.status = .running ∧ u.changed = true
  · cases answer with
    | none => exact .inr (.inl ⟨h.1, h.2, rfl, by simp [present, h.1, h.2]⟩)
    | some e => exact .inr (.inr ⟨e, h.1, h.2, rfl, by simp [present, h.1, h.2]⟩)
  · refine .inl ⟨h, ?_⟩
    unfold present
    split
    · next h1 h2 => exact absurd ⟨h1, h2⟩ h
    · next h1 h2 => exact absurd ⟨h1, h2⟩ h
    · rfl

/-! ### step -/

/-- Everything a step of a running engine can do (rule R56), `b` being the state at the cycle boundary. -/
theorem step_cases {s : State} (hs : s.status = .running) :
    (s.boundary.cancel = true ∧ step s = .next { s.boundary with status := .cancelled }) ∨
    (s.boundary.cancel = false ∧ s.fetchWord = none ∧ step s = .next (s.boundary.raise (.fetchOutOfRange s.pc))) ∨
    (∃ w e, s.boundary.cancel = false ∧ s.fetchWord = some w ∧ decode s.cfg w = .illegal e ∧
      step s = .next (s.boundary.advance.raise (DecodeError.fatal s.pc w e))) ∨
    (∃ w i u, s.boundary.cancel = false ∧ s.fetchWord = some w ∧ decode s.cfg w = .ok i ∧
      exec i s.boundary.advance = .next u ∧ step s = .next (present s.pc w s.move.render u)) := by
  have hstep : step s = cycle s.move.render s.boundary := by simp [step, stepState, hs]
  rw [hstep]
  unfold cycle
  by_cases hc : s.boundary.cancel = true
  · exact .inl ⟨hc, by rw [if_pos hc]⟩
  · refine .inr ?_
    have hc' := Bool.eq_false_iff.2 hc
    rw [if_neg hc, State.fetchWord_boundary, State.boundary_pc, State.boundary_cfg]
    cases hf : s.fetchWord with
    | none => exact .inl ⟨hc', rfl, rfl⟩
    | some w =>
      refine .inr ?_
      simp only
      cases hd : decode s.cfg w with
      | illegal e => exact .inl ⟨w, e, hc', rfl, hd, rfl⟩
      | ok i =>
        obtain ⟨u, hu⟩ := exec_next i s.boundary.advance
        exact .inr ⟨w, i, u, hc', rfl, hd, hu, by simp only [hu, finish]⟩

end Sys2Proof.Machine
end

