-- ==== Sys2Proof/Tests/Slice0.lean ====
section
/-! SUPPORT. Tests on fixed values taken from spec/95_test_vectors.md or worked out from the rules, and a witness for the
hypotheses of every statement that has some. -/

namespace Sys2Proof.Tests

open Sys2Proof.Machine

/-! ### Small states -/

/-- Parameters without a free value: legacy shifts, AddToIndex present, at most two calls. -/
def cfg : Config where
  memSize := 4096
  programBase := 0x200
  maxImage := 3584
  screenW := 64
  screenH := 32
  legacyShift := true
  hasAddToIndex := true
  strictLowNibble := false
  stackCap := some 2
  clsSetsChanged := true
  fontBase := 0x050
  fontGlyphs := Vector.replicate 80 0xF0
  cycleHz := 700
  timerHz := 60

/-- The same with the modern shift. -/
def cfgModern : Config := { cfg with legacyShift := false }

/-- The same without AddToIndex and with the low nibble checked. -/
def cfgStrict : Config := { cfg with hasAddToIndex := false, strictLowNibble := true }

/-- An instance with other sizes: 0x300 cells, a program from 0x100 on, a screen of 8 columns and 4 rows. -/
def cfgSmall : Config :=
  { cfg with memSize := 0x300, programBase := 0x100, maxImage := 2, screenW := 8, screenH := 4, fontBase := 0x010 }

/-- The reset state under `cfg`, pc past an instruction at 0x200. -/
def start : State := { State.initial cfg with pc := 0x0202 }

/-- `start` with Vx, Vy and I set. -/
def regs (x : Reg) (vx : Byte) (y : Reg) (vy : Byte) (i : Word) : State := ((start.setReg x vx).setReg y vy).setI i

/-- `start` with the word `w` at `a` and pc there. -/
def at_ (a w : Word) : State := { start with pc := a }.pokeWord a.toNat w

/-- What an observation of the next state gives, if there is one. -/
def seen {α : Type} (r : Result) (f : State → α) : Option α :=
  match r with
  | .next t => some (f t)
  | .fault _ => none
  | .refused _ => none

/-! ### WellFormed -/

/-- Rule R6: AddToIndex is the one ill-formed term, and only without HAS_ADD_TO_INDEX. -/
theorem test_wellFormed_refuses_addToIndex :
    Instr.wellFormed cfgStrict (.addToIndex 3) = false ∧ Instr.wellFormed constructionConfig (.addToIndex 3) = false := by
  decide

theorem test_wellFormed_admits : Instr.wellFormed cfg (.addToIndex 3) = true ∧ Instr.wellFormed cfgStrict (.draw 15 15 15) = true := by
  decide

/-! ### Decoding: every word written out bit by bit, family, X, Y, N (30_encoding.md rules R82, R85) -/

theorem test_decode_clearScreen : decode cfgStrict 0b0000000011100000 = .ok .clearScreen := by decide
theorem test_decode_ret : decode cfgStrict 0b0000000011101110 = .ok .ret := by decide
theorem test_decode_jump : decode cfgStrict 0b0001111111111111 = .ok (.jump 0xFFF) := by decide
theorem test_decode_call : decode cfgStrict 0b0010101010111100 = .ok (.call 0xABC) := by decide
theorem test_decode_skipEqualX : decode cfgStrict 0b0011111100000000 = .ok (.skipEqualX 15 0x00) := by decide
theorem test_decode_skipNotEqualX : decode cfgStrict 0b0100101001010101 = .ok (.skipNotEqualX 10 0x55) := by decide
theorem test_decode_skipEqualXY : decode cfg 0b0101000100100001 = .ok (.skipEqualXY 1 2) := by decide
theorem test_decode_setRegister : decode cfgStrict 0b0110010110101011 = .ok (.setRegister 5 0xAB) := by decide
theorem test_decode_addValueToRegister : decode cfgStrict 0b0111001000000011 = .ok (.addValueToRegister 2 0x03) := by decide
theorem test_decode_load : decode cfgStrict 0b1000000100100000 = .ok (.load 1 2) := by decide
theorem test_decode_or : decode cfgStrict 0b1000000100100001 = .ok (.or 1 2) := by decide
theorem test_decode_and : decode cfgStrict 0b1000101000110010 = .ok (.and 10 3) := by decide
theorem test_decode_xor : decode cfgStrict 0b1000000100100011 = .ok (.xor 1 2) := by decide
theorem test_decode_add : decode cfgStrict 0b1000000100100100 = .ok (.add 1 2) := by decide
theorem test_decode_sub : decode cfgStrict 0b1000000100100101 = .ok (.sub 1 2) := by decide
theorem test_decode_shiftRight : decode cfgStrict 0b1000000100100110 = .ok (.shiftRight 1 2) := by decide
theorem test_decode_subn : decode cfgStrict 0b1000000100100111 = .ok (.subn 1 2) := by decide
theorem test_decode_shiftLeft : decode cfgStrict 0b1000000100101110 = .ok (.shiftLeft 1 2) := by decide
theorem test_decode_skipNotEqualXY : decode cfgStrict 0b1001101010110000 = .ok (.skipNotEqualXY 10 11) := by decide
theorem test_decode_setIndexRegister : decode cfgStrict 0b1010110111111111 = .ok (.setIndexRegister 0xDFF) := by decide
theorem test_decode_draw : decode cfgStrict 0b1101001100101000 = .ok (.draw 3 2 8) := by decide
theorem test_decode_binaryCodedDecimal : decode cfgStrict 0b1111000000110011 = .ok (.binaryCodedDecimal 0) := by decide
theorem test_decode_storeRegisters : decode cfgStrict 0b1111000101010101 = .ok (.storeRegisters 1) := by decide
theorem test_decode_readIntoRegisters : decode cfgStrict 0b1111111101100101 = .ok (.readIntoRegisters 15) := by decide
theorem test_decode_addToIndex : decode tableConfig 0b1111000000011110 = .ok (.addToIndex 0) := by decide

/-- L2-A: words with no instruction, the three kinds the parameters decide among them. -/
theorem test_decode_illegal :
    decode cfg 0x0000 = .illegal .zeroNNN ∧ decode cfg 0x00E1 = .illegal .zeroNNN ∧ decode cfg 0x8128 = .illegal .unmapped ∧
    decode cfg 0xB123 = .illegal .unmapped ∧ decode cfg 0xC0FF = .illegal .unmapped ∧
    decode cfg 0xE09E = .illegal .unmapped ∧ decode cfg 0xF007 = .illegal .unmapped ∧
    decode cfgStrict 0x5121 = .illegal .unmapped ∧ decode cfgStrict 0x9ABF = .illegal .unmapped ∧
    decode cfgStrict 0xF01E = .illegal .unmapped := by decide

/-- The decoder of a table row: 16 bits, the first byte high. -/
theorem test_decodeTableWord :
    decodeTableWord 16 0xD328 = some (.draw 3 2 8) ∧ decodeTableWord 16 0xF01E = some (.addToIndex 0) ∧
    decodeTableWord 16 0x0000 = none := by decide

/-- L2-F, and rule R56: the placed word is the next instruction a step runs, from reset. -/
theorem test_withFetchWord :
    seen (step (State.reset.withFetchWord 16 0x65AB)) (fun t => (t.reg 5, t.pc, t.status)) = some (0xAB, 0x0202, .running) ∧
    seen (step (State.reset.withFetchWord 16 0xF01E)) (fun t => (t.i, t.pc, t.status)) = some (0, 0x0202, .running) := by
  decide

/-- A Draw from reset reads the word's own bytes at I = 0 as its sprite row, which is clear, and hands one frame over. -/
theorem test_withFetchWord_draw :
    seen (step (State.reset.withFetchWord 16 0xD011)) (fun t => (t.frames.length, t.changed, t.status)) =
      some (1, false, .running) := by decide

/-- A shift from reset runs although the quirk flag is a free value there. -/
theorem test_withFetchWord_shift :
    seen (step (State.reset.withFetchWord 16 0x8016)) (fun t => (t.pc, t.status)) = some (0x0202, .running) := by decide

/-! ### One step of each instruction -/

/-- L2-E `CLS`: VF is not written, a lit pixel goes out. -/
theorem test_clearScreen :
    seen (exec .clearScreen { start.setReg 15 0x09 with fb := FrameBuffer.blank.setPixel 5 5 true })
      (fun t => (t.fb.pixel 5 5, t.reg 15, t.changed)) = some (false, 0x09, true) := by decide

/-- L2-C `RET` at 0x218. -/
theorem test_ret :
    seen (exec .ret { start with pc := 0x021A, stack := [0x0206] }) (fun t => (t.pc, t.stack)) = some (0x0206, []) := by decide

/-- L2-C `RET` on an empty stack at 0x202. -/
theorem test_ret_underflow :
    seen (exec .ret { start with pc := 0x0204 }) (fun t => (t.status, t.pc)) =
      some (.halted (.stackUnderflow 0x0202 0x00EE), 0x0204) := by decide

/-- L2-C `JP 0xFFF`. -/
theorem test_jump : seen (exec (.jump 0xFFF) start) State.pc = some 0x0FFF := by decide

/-- L2-C `CALL 0x210` at 0x204. -/
theorem test_call :
    seen (exec (.call 0x210) { start with pc := 0x0206 }) (fun t => (t.pc, t.stack)) = some (0x0210, [0x0206]) := by decide

/-- L2-C `CALL 0x300` at 0x210 at the cap of two. -/
theorem test_call_overflow :
    seen (exec (.call 0x300) { start with pc := 0x0212, stack := [0x0302, 0x0206] }) (fun t => (t.status, t.pc, t.stack)) =
      some (.halted (.stackOverflow 0x0210 0x2300), 0x0212, [0x0302, 0x0206]) := by decide

/-- L2-C `SE V3, 0x10`, both ways. -/
theorem test_skipEqualX :
    seen (exec (.skipEqualX 3 0x10) (start.setReg 3 0x10)) State.pc = some 0x0204 ∧
    seen (exec (.skipEqualX 3 0x10) (start.setReg 3 0x11)) State.pc = some 0x0202 := by decide

/-- L2-C `SNE V3, 0x10`. -/
theorem test_skipNotEqualX : seen (exec (.skipNotEqualX 3 0x10) (start.setReg 3 0x10)) State.pc = some 0x0202 := by decide

/-- L2-C `SE V4, V4`, and rule R125 on unequal registers. -/
theorem test_skipEqualXY :
    seen (exec (.skipEqualXY 4 4) start) State.pc = some 0x0204 ∧
    seen (exec (.skipEqualXY 4 5) (start.setReg 4 1)) State.pc = some 0x0202 := by decide

/-- L2-C `SNE V4, V4` and `SNE V0, V1`. -/
theorem test_skipNotEqualXY :
    seen (exec (.skipNotEqualXY 4 4) start) State.pc = some 0x0202 ∧
    seen (exec (.skipNotEqualXY 0 1) (regs 0 5 1 4 0)) State.pc = some 0x0204 := by decide

/-- L2-B `LD V5, 0xAB`. -/
theorem test_setRegister : seen (exec (.setRegister 5 0xAB) start) (fun t => t.reg 5) = some 0xAB := by decide

/-- L2-B `ADD V2, 0x03` wraps and keeps VF, `ADD VF, 0xFF` is an ordinary write. -/
theorem test_addValueToRegister :
    seen (exec (.addValueToRegister 2 0x03) (regs 2 0xFE 15 0x07 0)) (fun t => (t.reg 2, t.reg 15)) = some (0x01, 0x07) ∧
    seen (exec (.addValueToRegister 15 0xFF) (start.setReg 15 0x10)) (fun t => t.reg 15) = some 0x0F := by decide

/-- L2-B `LD V0, V1`. -/
theorem test_load : seen (exec (.load 0 1) (start.setReg 1 0x42)) (fun t => (t.reg 0, t.reg 1)) = some (0x42, 0x42) := by decide

/-- L2-B `OR V0, V1`. -/
theorem test_or :
    seen (exec (.or 0 1) ((regs 0 0x0F 1 0xF0 0).setReg 15 0x05)) (fun t => (t.reg 0, t.reg 15)) = some (0xFF, 0x05) := by decide

/-- L2-B `AND VA, V3`. -/
theorem test_and : seen (exec (.and 10 3) (regs 10 0x3C 3 0x0F 0)) (fun t => t.reg 10) = some 0x0C := by decide

/-- L2-B `XOR V0, V0`. -/
theorem test_xor : seen (exec (.xor 0 0) (start.setReg 0 0x5A)) (fun t => t.reg 0) = some 0x00 := by decide

/-- L2-B `ADD V0, V1`. -/
theorem test_add :
    seen (exec (.add 0 1) (regs 0 0xFF 1 0x01 0)) (fun t => (t.reg 0, t.reg 15)) = some (0x00, 0x01) ∧
    seen (exec (.add 0 1) (regs 0 0x7F 1 0x01 0)) (fun t => (t.reg 0, t.reg 15)) = some (0x80, 0x00) := by decide

/-- L2-B `ADD VF, V1` and `ADD V0, VF`: the flag is written last, and VF is read first. -/
theorem test_add_VF :
    seen (exec (.add 15 1) (regs 15 0x10 1 0x01 0)) (fun t => t.reg 15) = some 0x00 ∧
    seen (exec (.add 0 15) (regs 0 0x01 15 0xFF 0)) (fun t => (t.reg 0, t.reg 15)) = some (0x00, 0x01) := by decide

/-- L2-B `SUB V0, V1`. -/
theorem test_sub :
    seen (exec (.sub 0 1) (regs 0 0x03 1 0x05 0)) (fun t => (t.reg 0, t.reg 15)) = some (0xFE, 0x00) ∧
    seen (exec (.sub 0 1) (regs 0 0x05 1 0x05 0)) (fun t => (t.reg 0, t.reg 15)) = some (0x00, 0x01) := by decide

/-- L2-B `SUB V0, VF`. -/
theorem test_sub_VF :
    seen (exec (.sub 0 15) (regs 0 0x10 15 0x01 0)) (fun t => (t.reg 0, t.reg 15)) = some (0x0F, 0x01) := by decide

/-- L2-B `SUBN V0, V1`. -/
theorem test_subn :
    seen (exec (.subn 0 1) (regs 0 0x05 1 0x03 0)) (fun t => (t.reg 0, t.reg 15)) = some (0xFE, 0x00) ∧
    seen (exec (.subn 15 1) (regs 15 0x03 1 0x05 0)) (fun t => t.reg 15) = some 0x01 := by decide

/-- L2-B `SHR V0, V1`, legacy and modern. -/
theorem test_shiftRight :
    seen (exec (.shiftRight 0 1) (regs 0 0xAA 1 0x03 0)) (fun t => (t.reg 0, t.reg 15, t.reg 1)) = some (0x01, 0x01, 0x03) ∧
    seen (exec (.shiftRight 0 1) { regs 0 0xAA 1 0x03 0 with cfg := cfgModern }) (fun t => (t.reg 0, t.reg 15)) =
      some (0x55, 0x00) := by decide

/-- L2-B `SHR VF, V0`, modern: the flag is written last. -/
theorem test_shiftRight_VF :
    seen (exec (.shiftRight 15 0) { start.setReg 15 0x02 with cfg := cfgModern }) (fun t => t.reg 15) = some 0x00 := by decide

/-- L2-B `SHL V0, V1`, legacy and modern. -/
theorem test_shiftLeft :
    seen (exec (.shiftLeft 0 1) (regs 0 0x00 1 0x81 0)) (fun t => (t.reg 0, t.reg 15)) = some (0x02, 0x01) ∧
    seen (exec (.shiftLeft 0 1) { regs 0 0x40 1 0x81 0 with cfg := cfgModern }) (fun t => (t.reg 0, t.reg 15)) =
      some (0x80, 0x00) := by decide

/-- L2-D `LD I, 0xDFF`. -/
theorem test_setIndexRegister : seen (exec (.setIndexRegister 0xDFF) start) State.i = some 0x0DFF := by decide

/-- L2-D `ADD I, V0`: no fault at 0x1000, and a wrap modulo 2^16. -/
theorem test_addToIndex :
    seen (exec (.addToIndex 0) (regs 0 0x01 1 0 0x0FFF)) State.i = some 0x1000 ∧
    seen (exec (.addToIndex 0) (regs 0 0x01 1 0 0xFFFF)) (fun t => (t.i, t.reg 15)) = some (0x0000, 0x00) := by decide

/-- L1-7, L2-D `LD B, V0`: the digits, at the top of memory. -/
theorem test_binaryCodedDecimal :
    seen (exec (.binaryCodedDecimal 0) (regs 0 235 1 0 0xFFD)) (fun t => (t.peek 0xFFD, t.peek 0xFFE, t.peek 0xFFF)) =
      some (2, 3, 5) := by decide

/-- L2-D `LD B, V0` with I = 0xFFE. -/
theorem test_binaryCodedDecimal_out :
    seen (exec (.binaryCodedDecimal 0) (regs 0 235 1 0 0xFFE)) (fun t => (t.status, t.mem)) =
      some (.halted (.memOutOfRange 0x0200 0xF033 0x1000), []) := by decide

/-- L2-D `LD [I], V1` with I = 0xFFE. -/
theorem test_storeRegisters :
    seen (exec (.storeRegisters 1) (regs 0 0x11 1 0x22 0xFFE)) (fun t => (t.mem, t.i)) =
      some ([(0xFFE, 0x11), (0xFFF, 0x22)], 0x0FFE) := by decide

/-- L2-D `LD [I], V2` with I = 0xFFE. -/
theorem test_storeRegisters_out :
    seen (exec (.storeRegisters 2) (regs 0 0x11 1 0x22 0xFFE)) (fun t => (t.status, t.mem)) =
      some (.halted (.memOutOfRange 0x0200 0xF255 0x1000), []) := by decide

/-- Rule R174: V0 and V1 are loaded, V2 and I are not written. -/
theorem test_readIntoRegisters :
    seen (exec (.readIntoRegisters 1) ((((start.setI 0x300).setReg 2 0x77).poke 0x300 0x05).poke 0x301 0x06))
      (fun t => (t.reg 0, t.reg 1, t.reg 2, t.i)) = some (0x05, 0x06, 0x77, 0x0300) := by decide

/-- L2-D `LD V3, [I]` with I = 0xFFD. -/
theorem test_readIntoRegisters_out :
    seen (exec (.readIntoRegisters 3) ((start.setI 0xFFD).setReg 0 0x77)) (fun t => (t.status, t.reg 0)) =
      some (.halted (.memOutOfRange 0x0200 0xF365 0x1000), 0x77) := by decide

/-- L2-E `DRW V0, V1, 1` at (68, 33): the origin wraps to (4, 1). -/
theorem test_draw_wraps :
    seen (exec (.draw 0 1 1) ((regs 0 0x44 1 0x21 0x300).poke 0x300 0x80))
      (fun t => (t.fb.pixel 4 1, t.fb.pixel 5 1, t.reg 15, t.changed)) = some (true, false, 0x00, true) := by decide

/-- L2-E `DRW V0, V1, 1` clipped at the right edge, and its collision with a lit pixel. -/
theorem test_draw_clips_and_collides :
    seen (exec (.draw 0 1 1) { (regs 0 62 1 0 0x300).poke 0x300 0xFF with fb := FrameBuffer.blank.setPixel 63 0 true })
      (fun t => (t.fb.pixel 62 0, t.fb.pixel 63 0, t.fb.pixel 0 0, t.reg 15)) = some (true, false, false, 0x01) := by decide

/-! ### The cycle -/

/-- L2-F: a word without an instruction. -/
theorem test_step_unmapped :
    seen (step (at_ 0x200 0xB000)) (fun t => (t.status, t.pc)) = some (.halted (.decodeUnmapped 0x0200 0xB000), 0x0202) := by
  decide

/-- L2-F: an empty image's first cycle. -/
theorem test_step_empty_image :
    seen (step (State.boot cfg [])) (fun t => (t.status, t.pc)) = some (.halted (.decode0NNN 0x0200 0x0000), 0x0202) := by decide

/-- L2-F: a Draw whose render returns an error. -/
theorem test_step_render_error :
    seen (step { at_ 0x200 0xD010 with env := [{ ticks := 2, cancel := false, render := some ⟨7⟩ }], dt := 1, st := 3 })
      (fun t => (t.status, t.changed, t.frames.length, t.dt, t.st)) =
      some (.halted (.renderFailed 0x0200 0xD010 ⟨7⟩), true, 1, 0, 1) := by decide

/-! ### Parameters at other values (rule R10): what a rule writes as 0xFFF, 0x200, 64 and 32 follows them -/

/-- The program starts at PROGRAM_BASE, and an image above MAX_IMAGE is fatal. -/
theorem test_small_boot :
    (State.boot cfgSmall [0x12, 0x34]).pc = 0x0100 ∧ (State.boot cfgSmall [0x12, 0x34]).fetchWord = some 0x1234 ∧
    (State.boot cfgSmall [1, 2, 3]).status = .halted (.imageTooLarge 3) := by decide

/-- The last cell is MEM_SIZE − 1, for a fetch and for a store. -/
theorem test_small_memory :
    seen (step { State.initial cfgSmall with pc := 0x2FF }) State.status = some (.halted (.fetchOutOfRange 0x02FF)) ∧
    seen (exec (.storeRegisters 1) { State.initial cfgSmall with i := 0x2FF, pc := 0x102 }) State.status =
      some (.halted (.memOutOfRange 0x0100 0xF155 0x300)) ∧
    seen (exec (.storeRegisters 0) { State.initial cfgSmall with i := 0x2FF, pc := 0x102 }) State.status = some .running := by
  decide

/-- The origin (15, 6) wraps to (7, 2), and the rest of the row is clipped. -/
theorem test_small_screen :
    seen (exec (.draw 0 1 1) ((({ State.initial cfgSmall with i := 0x200 }.setReg 0 15).setReg 1 6).poke 0x200 0xFF))
      (fun t => t.fb) = some [(7, 2)] := by decide

/-! ### Witnesses: states and operands that meet a statement's hypotheses -/

theorem test_witness_DecodeInvertsEncode :
    (Instr.addToIndex 15).wellFormed cfg = true ∧ (Instr.draw 15 0 15).wellFormed cfgStrict = true := by decide

/-- The three cases of the conclusion: canonical, and a re-encoded low nibble in each family. -/
theorem test_witness_EncodeInvertsDecode :
    decode cfg 0xFF1E = .ok (.addToIndex 15) ∧ decode cfg 0x512F = .ok (.skipEqualXY 1 2) ∧
    decode cfg 0x9AB1 = .ok (.skipNotEqualXY 10 11) := by decide

/-- Both causes, at the ends of their ranges (also the hypotheses of `Obligations.DecodeFaultWritesNothing`). -/
theorem test_witness_IllegalWordsAreExactly :
    ((at_ 0xFFE 0x0FFF).status = .running ∧ ((at_ 0xFFE 0x0FFF).cancel || (at_ 0xFFE 0x0FFF).move.cancel) = false ∧
      (at_ 0xFFE 0x0FFF).fetchWord = some 0x0FFF ∧ isZeroNNN 0x0FFF) ∧
    ((at_ 0xFFE 0xB000).status = .running ∧ ((at_ 0xFFE 0xB000).cancel || (at_ 0xFFE 0xB000).move.cancel) = false ∧
      (at_ 0xFFE 0xB000).fetchWord = some 0xB000 ∧ isUnmapped (at_ 0xFFE 0xB000).cfg 0xB000) := by
  refine ⟨⟨rfl, rfl, by decide, by unfold isZeroNNN; decide⟩, rfl, rfl, by decide, .inl (by decide)⟩

/-- The other forms of an unmapped word, under the parameter that decides each. -/
theorem test_witness_isUnmapped :
    isUnmapped cfg 0x8128 ∧ isUnmapped cfg 0xF007 ∧ isUnmapped cfgStrict 0xF01E ∧ isUnmapped cfgStrict 0x5121 ∧
    isUnmapped cfgStrict 0x912F ∧ isZeroNNN 0x0000 := by
  refine ⟨.inr (.inl ?_), .inr (.inr (.inl ?_)), .inr (.inr (.inl ?_)), .inr (.inr (.inr ?_)), .inr (.inr (.inr ?_)), ?_⟩
  · decide
  · decide
  · decide
  · decide
  · decide
  · unfold isZeroNNN
    decide

/-- A word of each family, its last one. -/
theorem test_witness_DecodeByFamily : ∀ f : Fin 16, (BitVec.ofNat 16 (f.val * 0x1000 + 0xFFF)).toNat / 0x1000 = f.val := by
  decide

theorem test_witness_DecodeReadsTwoParameters :
    cfg.hasAddToIndex = cfgModern.hasAddToIndex ∧ cfg.strictLowNibble = cfgModern.strictLowNibble ∧ cfg ≠ cfgModern := by decide

/-- pc = 0xFFE, the last address with a word. -/
theorem test_witness_StepRunsTheDecodedInstruction :
    (at_ 0xFFE 0x65AB).status = .running ∧ ((at_ 0xFFE 0x65AB).cancel || (at_ 0xFFE 0x65AB).move.cancel) = false ∧
    (at_ 0xFFE 0x65AB).pc.toNat + 1 < (at_ 0xFFE 0x65AB).cfg.memSize ∧
    (0x65AB : Word).toNat =
      ((at_ 0xFFE 0x65AB).peek (at_ 0xFFE 0x65AB).pc.toNat).toNat * 256 +
        ((at_ 0xFFE 0x65AB).peek ((at_ 0xFFE 0x65AB).pc.toNat + 1)).toNat ∧
    decode (at_ 0xFFE 0x65AB).cfg 0x65AB = .ok (.setRegister 5 0xAB) := by decide

/-- A cancellation that is set already, and one that the Host sets in the coming cycle. -/
theorem test_witness_CancellationEndsTheRun :
    (start.status = .running ∧ ({ start with cancel := true }.cancel || start.move.cancel) = true) ∧
    ((start.cancel || { start with env := [{ ticks := 0, cancel := true, render := none }] }.move.cancel) = true) := by decide

/-- pc = 0xFFF, and pc past the address space. -/
theorem test_witness_FetchOutOfRangeIsFatal :
    start.status = .running ∧ (start.cancel || start.move.cancel) = false ∧
    { start with pc := 0x0FFF }.pc.toNat + 1 ≥ start.cfg.memSize ∧ { start with pc := 0x1002 }.pc.toNat + 1 ≥ start.cfg.memSize := by decide

/-- One instruction of each cause (Draw, BinaryCodedDecimal, StoreRegisters and ReadIntoRegisters share theirs). -/
theorem test_witness_ExecuteFaultWritesNothing :
    (∃ t, exec .ret start = .next t ∧ t.status = .halted (.stackUnderflow 0x0200 0x00EE)) ∧
    (∃ t, exec (.call 0) { start with stack := [0, 0] } = .next t ∧ t.status = .halted (.stackOverflow 0x0200 0x2000)) ∧
    (∃ t, exec (.draw 0 1 1) (start.setI 0xFFFF) = .next t ∧ t.status = .halted (.memOutOfRange 0x0200 0xD011 0xFFFF)) ∧
    (∃ t, exec (.binaryCodedDecimal 0) (start.setI 0xFFE) = .next t ∧
      t.status = .halted (.memOutOfRange 0x0200 0xF033 0x1000)) ∧
    (∃ t, exec (.storeRegisters 15) (start.setI 0xFF1) = .next t ∧
      t.status = .halted (.memOutOfRange 0x0200 0xFF55 0x1000)) ∧
    (∃ t, exec (.readIntoRegisters 15) (start.setI 0xFF1) = .next t ∧
      t.status = .halted (.memOutOfRange 0x0200 0xFF65 0x1000)) :=
  ⟨⟨_, rfl, rfl⟩, ⟨_, rfl, rfl⟩, ⟨_, rfl, rfl⟩, ⟨_, rfl, rfl⟩, ⟨_, rfl, rfl⟩, ⟨_, rfl, rfl⟩⟩

/-- Each form with its first address outside memory, at the edge, and one with I itself outside. -/
theorem test_witness_MemOutOfRangeWritesNothing :
    ((∃ x y n, Instr.draw 0 1 15 = .draw x y n ∧ 15 = n.val) ∧ 14 < 15 ∧ (start.setI 0xFF2).i.toNat + 14 ≥ start.cfg.memSize ∧
      ∀ j, j < 14 → (start.setI 0xFF2).i.toNat + j < start.cfg.memSize) ∧
    ((∃ x, Instr.binaryCodedDecimal 0 = .binaryCodedDecimal x ∧ 3 = 3) ∧ 2 < 3 ∧ (start.setI 0xFFE).i.toNat + 2 ≥ start.cfg.memSize ∧
      ∀ j, j < 2 → (start.setI 0xFFE).i.toNat + j < start.cfg.memSize) ∧
    ((∃ x, Instr.storeRegisters 15 = .storeRegisters x ∧ 16 = x.val + 1) ∧ 15 < 16 ∧ (start.setI 0xFF1).i.toNat + 15 ≥ start.cfg.memSize ∧
      ∀ j, j < 15 → (start.setI 0xFF1).i.toNat + j < start.cfg.memSize) ∧
    ((∃ x, Instr.readIntoRegisters 0 = .readIntoRegisters x ∧ 1 = x.val + 1) ∧ 0 < 1 ∧
      (start.setI 0x1000).i.toNat + 0 ≥ start.cfg.memSize ∧ ∀ j, j < 0 → (start.setI 0x1000).i.toNat + j < start.cfg.memSize) :=
  ⟨⟨⟨0, 1, 15, rfl, rfl⟩, by decide, by decide, by decide⟩, ⟨⟨0, rfl, rfl⟩, by decide, by decide, by decide⟩,
    ⟨⟨15, rfl, rfl⟩, by decide, by decide, by decide⟩, ⟨⟨0, rfl, rfl⟩, by decide, by decide, by decide⟩⟩

theorem test_witness_DisplayContract :
    start.status = .running ∧ (start.setChanged true).changed = true ∧ start.changed = false := by decide

/-- A Draw, a ClearScreen and an instruction that renders nothing. -/
theorem test_witness_RendersExactly :
    (at_ 0x200 0xD010).status = .running ∧ (at_ 0x200 0xD010).changed = false ∧
    ((at_ 0x200 0xD010).cancel || (at_ 0x200 0xD010).move.cancel) = false ∧
    (at_ 0x200 0xD010).fetchWord = some 0xD010 ∧ decode (at_ 0x200 0xD010).cfg 0xD010 = .ok (.draw 0 1 0) ∧
    (∃ u, exec (.draw 0 1 0) { (at_ 0x200 0xD010).boundary with pc := (at_ 0x200 0xD010).pc + 2 } = .next u ∧
      u.status = .running) ∧
    (∃ t, step (at_ 0x200 0xD010) = .next t) ∧
    (at_ 0x200 0x00E0).fetchWord = some 0x00E0 ∧ decode (at_ 0x200 0x00E0).cfg 0x00E0 = .ok .clearScreen ∧
    (at_ 0x200 0x1200).fetchWord = some 0x1200 ∧ decode (at_ 0x200 0x1200).cfg 0x1200 = .ok (.jump 0x200) :=
  ⟨rfl, rfl, rfl, by decide, by decide, ⟨_, rfl, rfl⟩, ⟨_, rfl⟩, by decide, by decide, by decide, by decide⟩

theorem test_witness_OnlyRunningHasANextCycle :
    start.status = .running ∧ (start.raise (.fetchOutOfRange 0x0FFF)).status = .halted (.fetchOutOfRange 0x0FFF) ∧
    { start with status := .cancelled }.status = .cancelled := by decide

/-- A step that is no shift. -/
theorem test_witness_QuirkFlagIsConfiguration :
    (∀ w x y, (at_ 0x200 0x1200).fetchWord = some w →
      decode (at_ 0x200 0x1200).cfg w ≠ .ok (.shiftRight x y) ∧ decode (at_ 0x200 0x1200).cfg w ≠ .ok (.shiftLeft x y)) ∧
    ∃ t, step (at_ 0x200 0x1200) = .next t := by
  refine ⟨fun w x y h => ?_, _, rfl⟩
  have hw : (at_ 0x200 0x1200).fetchWord = some 0x1200 := by decide
  have hd : decode (at_ 0x200 0x1200).cfg 0x1200 = .ok (.jump 0x200) := by decide
  rw [hw] at h
  cases h
  rw [hd]
  exact ⟨nofun, nofun⟩

theorem test_witness_TimersAreUnobservable :
    ∃ t, step { at_ 0x200 0x1200 with env := [{ ticks := 1, cancel := false, render := none }], dt := 1 } = .next t := ⟨_, rfl⟩

/-- A flag writer with VF as its destination too, and an instruction that leaves VF alone. -/
theorem test_witness_FlagRegisterWriters :
    (writesFlag (.add 15 1) = true ∧ start.status = .running ∧ ∃ t, exec (.add 15 1) start = .next t ∧ t.status = .running) ∧
    (writesFlag (.readIntoRegisters 14) = false ∧ writesReg (.readIntoRegisters 14) 15 = false ∧
      ∃ t, exec (.readIntoRegisters 14) start = .next t ∧ t.status = .running) :=
  ⟨⟨rfl, rfl, _, rfl, rfl⟩, rfl, rfl, _, rfl, rfl⟩

/-- A step that changes each of I, the stack, the frame buffer and a byte of memory. -/
theorem test_witness_OnlyNamedInstructionsWrite :
    seen (step (at_ 0x200 0xA001)) State.i = some 0x0001 ∧ start.i = 0x0000 ∧
    seen (step (at_ 0x200 0x2300)) State.stack = some [0x0202] ∧ start.stack = [] ∧
    seen (step ((at_ 0x200 0xD001).setI 0x200)) (fun t => t.fb.pixel 0 0) = some true ∧ start.fb.pixel 0 0 = false ∧
    seen (step ((at_ 0x200 0xF055).setReg 0 0x01)) (fun t => t.peek 0) = some 0x01 ∧ (at_ 0x200 0xF055).peek 0 = 0x00 := by
  decide

/-- A full stack of the highest return addresses, memory and frames that are not empty, and a fetch that is out of range with pc at the
top of its range. -/
theorem test_witness_StepKeepsInvariant :
    (State.Inv { at_ 0x200 0x1200 with stack := [0x1000, 0x1000], fb := [(63, 0), (63, 31)], frames := [[(0, 0)]] } ∧
      seen (step { at_ 0x200 0x1200 with stack := [0x1000, 0x1000], fb := [(63, 0), (63, 31)], frames := [[(0, 0)]] }) State.pc = some 0x0200) ∧
    (State.Inv { start with pc := 0x1002 } ∧ seen (step { start with pc := 0x1002 }) State.pc = some 0x1002) := by
  refine ⟨⟨⟨by decide, by decide, ?_, by decide, ?_, ?_, ?_, fun _ => rfl⟩, by decide⟩,
    ⟨by decide, by decide, nofun, by decide, nofun, ?_, ?_, fun _ => rfl⟩, by decide⟩
  · intro f hf
    rw [List.mem_singleton.1 hf]
    decide
  · intro r hr
    simp only [List.mem_cons, List.not_mem_nil, or_false, or_self] at hr
    rw [hr]
    decide
  · exact fun c h => Nat.le_of_eq (Option.some.inj h)
  · exact fun _ => by decide
  · exact fun c _ => Nat.zero_le c
  · exact fun _ => by decide

/-- The first and the last font byte, and cells on either side of them. -/
theorem test_witness_ResetValues : 0 < 80 ∧ 79 < 80 ∧ (0x04F < 0x050 ∨ 0x09F < 0x04F) ∧ (0x0A0 < 0x050 ∨ 0x09F < 0x0A0) := by decide

/-- The empty image and the longest one at the default sizes, with its first and last byte, the last font byte and a cell on
either side. -/
theorem test_witness_ImageIsLoadedVerbatim :
    ([] : List Byte).length ≤ cfg.maxImage ∧ ([] : List Byte).length ≤ cfg.memSize - cfg.programBase.toNat ∧
    (List.replicate 3584 (0xFF : Byte)).length ≤ cfg.maxImage ∧
    (List.replicate 3584 (0xFF : Byte)).length ≤ cfg.memSize - cfg.programBase.toNat ∧
    0 < (List.replicate 3584 (0xFF : Byte)).length ∧ 3583 < (List.replicate 3584 (0xFF : Byte)).length ∧
    (79 < 80 ∧ cfg.fontBase.toNat + 79 < cfg.programBase.toNat) ∧
    (0x1FF < cfg.programBase.toNat ∧ cfg.fontBase.toNat + 80 ≤ 0x1FF) ∧
    (cfg.programBase.toNat + (List.replicate 3584 (0xFF : Byte)).length ≤ 0x1000 ∧ cfg.fontBase.toNat + 80 ≤ 0x1000) := by
  rw [List.length_replicate]
  decide

/-- One byte too many, and the cells on either side of the font. -/
theorem test_witness_OversizedImageIsFatal :
    (List.replicate 3585 (0x00 : Byte)).length > cfg.maxImage ∧ 0 < 80 ∧ 0x04F < cfg.fontBase.toNat ∧
    cfg.fontBase.toNat + 80 ≤ 0x0A0 := by
  rw [List.length_replicate]
  decide

/-- No rows with I outside memory, and fifteen rows that end at 0xFFF. -/
theorem test_witness_DrawXorsTheSprite :
    ((0 : Height).val = 0 ∨ (start.setI 0xFFFF).i.toNat + (0 : Height).val ≤ start.cfg.memSize) ∧
    ((15 : Height).val = 0 ∨ (start.setI 0xFF1).i.toNat + (15 : Height).val ≤ start.cfg.memSize) := by decide

theorem test_witness_DrawTwiceRestores :
    ((1 : Height).val = 0 ∨ (start.setI 0xFFF).i.toNat + (1 : Height).val ≤ start.cfg.memSize) ∧
    FrameBuffer.wf 64 32 (start.setI 0xFFF).fb ∧
    ∃ t, exec (.draw 0 1 1) (start.setI 0xFFF) = .next t ∧ t.reg 0 = (start.setI 0xFFF).reg 0 ∧
      t.reg 1 = (start.setI 0xFFF).reg 1 :=
  ⟨by decide, FrameBuffer.wf_blank 64 32, _, rfl, rfl, rfl⟩

theorem test_witness_DisplayFrame :
    family .clearScreen = .display ∧ family (.draw 0 1 1) = .display ∧ (∃ t, exec .clearScreen start = .next t) ∧
    ∃ t, exec (.draw 0 1 1) start = .next t := ⟨rfl, rfl, ⟨_, rfl⟩, _, rfl⟩

theorem test_witness_ReturnPopsThePc : { start with stack := [0x1000] }.stack = 0x1000 :: [] ∧ start.stack = [] := by decide

/-- Below the cap, at it, and above it. -/
theorem test_witness_CallPushesAndJumps :
    { start with stack := [0] }.cfg.stackCap ≠ some { start with stack := [0] }.stack.length ∧
    { start with stack := [0, 0] }.cfg.stackCap = some { start with stack := [0, 0] }.stack.length ∧
    { start with stack := [0, 0, 0] }.cfg.stackCap ≠ some { start with stack := [0, 0, 0] }.stack.length := by decide

theorem test_witness_CallsThenReturnsRestore :
    { start with cfg := { cfg with stackCap := none } }.status = .running ∧
    { start with cfg := { cfg with stackCap := none } }.cfg.stackCap = none := by decide

theorem test_witness_SelfJumpIsAFixedPoint :
    (at_ 0xFFE 0x1FFE).status = .running ∧ (at_ 0xFFE 0x1FFE).cancel = false ∧ (at_ 0xFFE 0x1FFE).env = [] ∧
    (at_ 0xFFE 0x1FFE).changed = false ∧ (at_ 0xFFE 0x1FFE).atSelfJump := by
  refine ⟨rfl, rfl, rfl, rfl, ?_⟩
  unfold State.atSelfJump
  decide

theorem test_witness_ControlFlowFrame :
    family .ret = .controlFlow ∧ family (.call 0) = .controlFlow ∧ family (.skipEqualXY 0 0) = .controlFlow ∧
    (∃ t, exec .ret start = .next t) ∧ (∃ t, exec (.call 0) start = .next t) ∧ ∃ t, exec (.skipEqualXY 0 0) start = .next t :=
  ⟨rfl, rfl, rfl, ⟨_, rfl⟩, ⟨_, rfl⟩, _, rfl⟩

/-- x = 15: the destination and VF are one register. -/
theorem test_witness_AluFrame :
    family (.add 15 1) = .alu ∧ writesReg (.add 15 1) 14 = false ∧ ¬((14 : Reg) = 15 ∧ writesFlag (.add 15 1) = true) ∧
    ∃ t, exec (.add 15 1) start = .next t := ⟨rfl, rfl, by decide, _, rfl⟩

/-- The equations of AddWritesSumThenCarry and SubWritesDifferenceThenNoBorrow at the largest operands, and of
ShiftsWriteResultThenBitOut in the legacy setting and the modern one. -/
theorem test_witness_AluOperands :
    255 = (regs 0 0xFF 1 0xFF 0).v[(0 : Reg).val].toNat ∧ 255 = (regs 0 0xFF 1 0xFF 0).v[(1 : Reg).val].toNat ∧
    3 = (if (regs 0 0xAA 1 0x03 0).cfg.legacyShift = true then (regs 0 0xAA 1 0x03 0).v[(1 : Reg).val].toNat
      else (regs 0 0xAA 1 0x03 0).v[(0 : Reg).val].toNat) ∧
    0xAA = (if cfgModern.legacyShift = true then (regs 0 0xAA 1 0x03 0).v[(1 : Reg).val].toNat
      else (regs 0 0xAA 1 0x03 0).v[(0 : Reg).val].toNat) := by decide

theorem test_witness_BcdStoresTheDigits : (start.setI 0xFFD).i.toNat + 2 < start.cfg.memSize := by decide

/-- The largest block, ending at 0xFFF (also the ReadIntoRegisters statement's hypothesis). -/
theorem test_witness_StoreRegistersStoresTheBlock : (start.setI 0xFF0).i.toNat + (15 : Reg).val < start.cfg.memSize := by decide

theorem test_witness_ReadIntoRegistersLoadsTheBlock : (start.setI 0xFFF).i.toNat + (0 : Reg).val < start.cfg.memSize := by decide

theorem test_witness_StoreThenReadRoundTrips :
    (start.setI 0xFF0).i.toNat + (15 : Reg).val < start.cfg.memSize ∧ ∃ t, exec (.storeRegisters 15) (start.setI 0xFF0) = .next t :=
  ⟨by decide, _, rfl⟩

/-- Both stored bytes of a StoreRegisters, the one of X = 0 as the high half and as the low half, and the last digit of a
BinaryCodedDecimal. -/
theorem test_witness_StoredBytesAreFetched :
    ((start.setI 0xFF0).i.toNat + storedBytes (.storeRegisters 15) ≤ start.cfg.memSize ∧ 0xFFE + 1 < start.cfg.memSize ∧
      ∃ t, exec (.storeRegisters 15) ((start.setI 0xFF0).goto 0xFFE) = .next t) ∧
    ((start.setI 0x300).i.toNat + storedBytes (.storeRegisters 0) ≤ start.cfg.memSize ∧
      (∃ t, exec (.storeRegisters 0) ((start.setI 0x300).goto 0x300) = .next t) ∧
      ∃ t, exec (.storeRegisters 0) ((start.setI 0x300).goto 0x2FF) = .next t) ∧
    ((start.setI 0xFFD).i.toNat + storedBytes (.binaryCodedDecimal 0) ≤ start.cfg.memSize ∧
      ∃ t, exec (.binaryCodedDecimal 0) ((start.setI 0xFFD).goto 0xFFE) = .next t) :=
  ⟨⟨by decide, by decide, _, rfl⟩, ⟨by decide, ⟨_, rfl⟩, _, rfl⟩, by decide, _, rfl⟩

/-- The bytes the statement names are the spec's: L1-7 for the digits, Vk for a register. -/
theorem test_storedByte :
    (List.range 3).map ((start.setReg 4 235).storedByte (.binaryCodedDecimal 4)) = [2, 3, 5] ∧
    (start.setReg 15 0x7E).storedByte (.storeRegisters 15) 15 = 0x7E := by decide

/-- A byte just below and one just above the stored block. -/
theorem test_witness_IndexMemoryFrame :
    family (.storeRegisters 1) = .indexMemory ∧ (∃ t, exec (.storeRegisters 1) (start.setI 0x300) = .next t) ∧
    0x2FF < (start.setI 0x300).i.toNat ∧ (start.setI 0x300).i.toNat + storedBytes (.storeRegisters 1) ≤ 0x302 ∧
    writesReg (.readIntoRegisters 1) 2 = false ∧ (∀ a, Instr.storeRegisters 1 ≠ .setIndexRegister a) ∧
    ∀ x, Instr.storeRegisters 1 ≠ .addToIndex x :=
  ⟨rfl, ⟨_, rfl⟩, by decide, by decide, rfl, nofun, nofun⟩

end Sys2Proof.Tests
end

/-! PROOFS, 10_state.md rule R29: no step writes the configuration, and LEGACY_SHIFT is read by the two shifts alone. The
second half is a commuting diagram: rewriting the flag commutes with every operation an instruction other than a shift is
made of, hence with `exec`, with the phases of a cycle, and with `step`. -/

namespace Sys2Proof.Machine

/-! ### No step writes the configuration -/

/-- Only a running engine has a next state (rule R30). -/
theorem status_of_step_next {s t : State} (h : step s = .next t) : s.status = .running := by
  cases hs : s.status with
  | running => rfl
  | halted f => simp [step, stepState, hs] at h
  | cancelled => simp [step, stepState, hs] at h

@[simp] theorem present_cfg (addr opcode : Word) (answer : Option RenderError) (u : State) :
    (present addr opcode answer u).cfg = u.cfg := by
  rcases present_cases addr opcode answer u with ⟨-, h⟩ | ⟨-, -, -, h⟩ | ⟨e, -, -, -, h⟩ <;> rw [h]

theorem step_cfg {s t : State} (h : step s = .next t) : t.cfg = s.cfg := by
  rcases step_cases (status_of_step_next h) with
    ⟨-, hstep⟩ | ⟨-, -, hstep⟩ | ⟨w, e, -, -, -, hstep⟩ | ⟨w, i, u, -, -, -, hexec, hstep⟩ <;>
    cases hstep.symm.trans h
  · exact s.boundary_cfg
  · exact s.boundary_cfg
  · exact s.boundary_cfg
  · rw [present_cfg, (exec_untouched hexec).cfg, State.advance_cfg, State.boundary_cfg]

/-! ### Rewriting the flag -/

/-- `s` constructed with the other arguments as they are and LEGACY_SHIFT = `b`. -/
def State.withLegacyShift (s : State) (b : Bool) : State := { s with cfg := { s.cfg with legacyShift := b } }

/-- Apply `f` to the next state, if there is one. -/
def mapNext (f : State → State) : Result → Result
  | .next s => .next (f s)
  | .fault r => .fault r
  | .refused r => .refused r

section flag

variable (s : State) (b : Bool)

/-! What a cycle consults besides the operands of its instruction does not read the flag. -/

@[simp] theorem State.withLegacyShift_stack : (s.withLegacyShift b).stack = s.stack := rfl
@[simp] theorem State.withLegacyShift_changed : (s.withLegacyShift b).changed = s.changed := rfl
@[simp] theorem State.withLegacyShift_status : (s.withLegacyShift b).status = s.status := rfl
@[simp] theorem State.withLegacyShift_cancel : (s.withLegacyShift b).cancel = s.cancel := rfl
@[simp] theorem State.move_withLegacyShift : (s.withLegacyShift b).move = s.move := rfl
@[simp] theorem State.fetchWord_withLegacyShift : (s.withLegacyShift b).fetchWord = s.fetchWord := rfl
@[simp] theorem decode_withLegacyShift (w : Word) : decode (s.withLegacyShift b).cfg w = decode s.cfg w := rfl
@[simp] theorem State.firstOutOfRange_withLegacyShift (count : Nat) :
    (s.withLegacyShift b).firstOutOfRange count = s.firstOutOfRange count := rfl

/-! Every operation that makes up an instruction other than a shift commutes with rewriting the flag. -/

@[simp] theorem State.advance_withLegacyShift : (s.withLegacyShift b).advance = s.advance.withLegacyShift b := rfl

theorem State.storeRegs_withLegacyShift (n : Nat) :
    (s.withLegacyShift b).storeRegs n = (s.storeRegs n).withLegacyShift b := by
  induction n with
  | zero => rfl
  | succ n ih => rw [State.storeRegs, ih]; rfl

theorem State.readRegs_withLegacyShift (n : Nat) :
    (s.withLegacyShift b).readRegs n = (s.readRegs n).withLegacyShift b := by
  induction n with
  | zero => rfl
  | succ n ih =>
    rw [State.readRegs, State.readRegs, ih]
    split <;> rfl

theorem State.skipIf_withLegacyShift (c : Bool) :
    (s.withLegacyShift b).skipIf c = (s.skipIf c).withLegacyShift b := by
  cases c <;> rfl

theorem State.guardRange_withLegacyShift (i : Instr) (count : Nat) (go : State) :
    (s.withLegacyShift b).guardRange i count (go.withLegacyShift b) =
      mapNext (·.withLegacyShift b) (s.guardRange i count go) := by
  unfold State.guardRange
  rw [State.firstOutOfRange_withLegacyShift]
  cases s.firstOutOfRange count <;> rfl

theorem State.ticks_withLegacyShift (n : Nat) :
    State.ticks n (s.withLegacyShift b) = (State.ticks n s).withLegacyShift b := by
  induction n generalizing s with
  | zero => rfl
  | succ n ih => exact ih s.tick

theorem State.boundary_withLegacyShift : (s.withLegacyShift b).boundary = s.boundary.withLegacyShift b := by
  rw [State.boundary, State.move_withLegacyShift, State.ticks_withLegacyShift]
  rfl

/-! ### The diagram for an instruction and for the phases of a cycle -/

/-- An instruction other than a shift does the same under either setting. -/
theorem exec_withLegacyShift {i : Instr} (hr : ∀ x y, i ≠ .shiftRight x y) (hl : ∀ x y, i ≠ .shiftLeft x y) :
    exec i (s.withLegacyShift b) = mapNext (·.withLegacyShift b) (exec i s) := by
  cases i with
  | shiftRight x y => exact absurd rfl (hr x y)
  | shiftLeft x y => exact absurd rfl (hl x y)
  | clearScreen =>
    simp only [exec, execClearScreen, mapNext, apply_ite (State.withLegacyShift · b)]
    rfl
  | ret =>
    simp only [exec, execReturn, State.withLegacyShift_stack]
    cases s.stack <;> rfl
  | call nnn =>
    simp only [exec, execCall, apply_ite (mapNext _)]
    rfl
  | skipEqualX | skipNotEqualX | skipEqualXY | skipNotEqualXY =>
    exact congrArg Host.Outcome.next (s.skipIf_withLegacyShift b _)
  | draw x y n => exact s.guardRange_withLegacyShift b (.draw x y n) n.val (s.afterDraw x y n)
  | binaryCodedDecimal x => exact s.guardRange_withLegacyShift b (.binaryCodedDecimal x) 3 (s.afterBcd x)
  | storeRegisters x =>
    simp only [exec, execStoreRegisters, State.storeRegs_withLegacyShift]
    exact s.guardRange_withLegacyShift b _ _ _
  | readIntoRegisters x =>
    simp only [exec, execReadIntoRegisters, State.readRegs_withLegacyShift]
    exact s.guardRange_withLegacyShift b _ _ _
  | jump | setRegister | addValueToRegister | load | or | and | xor | add | sub | subn | setIndexRegister
    | addToIndex => rfl

theorem present_withLegacyShift (addr opcode : Word) (answer : Option RenderError) :
    present addr opcode answer (s.withLegacyShift b) = (present addr opcode answer s).withLegacyShift b := by
  unfold present
  rw [State.withLegacyShift_status, State.withLegacyShift_changed]
  split <;> rfl

theorem finish_withLegacyShift (addr opcode : Word) (answer : Option RenderError) (r : Result) :
    finish addr opcode answer (mapNext (·.withLegacyShift b) r) =
      mapNext (·.withLegacyShift b) (finish addr opcode answer r) := by
  cases r with
  | next u => exact congrArg Host.Outcome.next (present_withLegacyShift u b addr opcode answer)
  | fault | refused => rfl

/-- The word that `s` fetches, if any, is no shift. -/
def State.FetchesNoShift : Prop :=
  ∀ w x y, s.fetchWord = some w → decode s.cfg w ≠ .ok (.shiftRight x y) ∧ decode s.cfg w ≠ .ok (.shiftLeft x y)

theorem cycle_withLegacyShift (answer : Option RenderError) (h : s.FetchesNoShift) :
    cycle answer (s.withLegacyShift b) = mapNext (·.withLegacyShift b) (cycle answer s) := by
  unfold cycle
  rw [State.withLegacyShift_cancel, State.fetchWord_withLegacyShift, State.advance_withLegacyShift]
  by_cases hc : s.cancel = true
  · rw [if_pos hc, if_pos hc]
    rfl
  · rw [if_neg hc, if_neg hc]
    cases hf : s.fetchWord with
    | none => rfl
    | some w =>
      simp only [decode_withLegacyShift]
      cases hd : decode s.cfg w with
      | illegal e => rfl
      | ok i =>
        have hr : ∀ x y, i ≠ .shiftRight x y := fun x y e => (h w x y hf).1 (e ▸ hd)
        have hl : ∀ x y, i ≠ .shiftLeft x y := fun x y e => (h w x y hf).2 (e ▸ hd)
        simp only [exec_withLegacyShift s.advance b hr hl]
        exact finish_withLegacyShift b _ _ _ _

/-- A step that executes no shift is the same under either setting. -/
theorem step_withLegacyShift (h : s.FetchesNoShift) :
    step (s.withLegacyShift b) = mapNext (·.withLegacyShift b) (step s) := by
  have hboundary : s.boundary.FetchesNoShift := by simpa [State.FetchesNoShift] using h
  unfold step stepState
  rw [State.withLegacyShift_status, State.move_withLegacyShift, State.boundary_withLegacyShift]
  cases s.status with
  | running => exact cycle_withLegacyShift s.boundary b _ hboundary
  | halted | cancelled => rfl

end flag

/-- Settles O18: no phase of a step writes the configuration, and rewriting the flag commutes with a step that executes no
shift. -/
theorem quirkFlagIsConfiguration : Obligations.QuirkFlagIsConfiguration := by
  unfold Obligations.QuirkFlagIsConfiguration
  refine ⟨fun s t => step_cfg, fun s t b hshift hstep => ?_⟩
  calc step (s.withLegacyShift b)
      = mapNext (·.withLegacyShift b) (step s) := step_withLegacyShift s b hshift
    _ = .next (t.withLegacyShift b) := by rw [hstep]; rfl

end Sys2Proof.Machine

/-! PROOFS, 30_encoding.md: what each opcode family decodes to and which words are illegal. The fields of a word are quotients and
remainders of its value; the families with a selector of their own (0, 5, 8, 9, F) are classified one at a time, and `decode` is
assembled from them along the family nibble. -/

namespace Sys2Proof.Machine

/-! ### Fields as quotients and remainders -/

theorem xOf_eq_ofNat (w : Word) : xOf w = Fin.ofNat 16 (w.toNat / 0x100) := Fin.ext (xOf_val w)

theorem yOf_eq_ofNat (w : Word) : yOf w = Fin.ofNat 16 (w.toNat / 0x10) := Fin.ext (yOf_val w)

theorem nOf_toFin_eq_ofNat (w : Word) : (nOf w).toFin = Fin.ofNat 16 (w.toNat % 0x10) := by
  apply Fin.ext
  rw [BitVec.val_toFin, nOf_toNat, Fin.val_ofNat, Nat.mod_mod]

theorem nnOf_eq_ofNat (w : Word) : nnOf w = BitVec.ofNat 8 w.toNat :=
  BitVec.eq_of_toNat_eq (by rw [nnOf_toNat, BitVec.toNat_ofNat])

theorem nnnOf_eq_ofNat (w : Word) : nnnOf w = BitVec.ofNat 12 w.toNat :=
  BitVec.eq_of_toNat_eq (by rw [nnnOf_toNat, BitVec.toNat_ofNat])

theorem nOf_eq_zero_iff (w : Word) : nOf w = 0 ↔ w.toNat % 0x10 = 0 := by
  rw [← BitVec.toNat_inj, nOf_toNat]
  rfl

section illegal

/-! ### The families whose selector picks the instruction -/

variable (cfg : Config) (w : Word) (e : DecodeError)

/-- Rule R85 for family 8, the function nibble read as a remainder. -/
theorem decodeEight_eq_ite : decodeEight w =
    if w.toNat % 0x10 = 0x0 then .ok (.load (xOf w) (yOf w)) else if w.toNat % 0x10 = 0x1 then .ok (.or (xOf w) (yOf w))
    else if w.toNat % 0x10 = 0x2 then .ok (.and (xOf w) (yOf w)) else if w.toNat % 0x10 = 0x3 then .ok (.xor (xOf w) (yOf w))
    else if w.toNat % 0x10 = 0x4 then .ok (.add (xOf w) (yOf w)) else if w.toNat % 0x10 = 0x5 then .ok (.sub (xOf w) (yOf w))
    else if w.toNat % 0x10 = 0x6 then .ok (.shiftRight (xOf w) (yOf w))
    else if w.toNat % 0x10 = 0x7 then .ok (.subn (xOf w) (yOf w))
    else if w.toNat % 0x10 = 0xE then .ok (.shiftLeft (xOf w) (yOf w)) else .illegal .unmapped := by
  have hn : w.toNat % 0x10 < 0x10 := Nat.mod_lt _ (by decide)
  rw [decodeEight, nOf_toNat]
  generalize w.toNat % 0x10 = n at hn ⊢
  interval_cases n <;> rfl

theorem decodeXY_eq_ite (i : Instr) :
    decodeXY cfg w i = if cfg.strictLowNibble = true ∧ w.toNat % 0x10 ≠ 0 then .illegal .unmapped else .ok i := by
  simp only [decodeXY, ne_eq, nOf_eq_zero_iff, and_comm]

theorem decodeZero_eq_illegal_iff :
    decodeZero w = .illegal e ↔ DecodeError.zeroNNN = e ∧ w.toNat ≠ 0x00E0 ∧ w.toNat ≠ 0x00EE := by
  have hcls : w = 0x00E0 ↔ w.toNat = 0x00E0 := BitVec.toNat_inj.symm
  have hret : w = 0x00EE ↔ w.toNat = 0x00EE := BitVec.toNat_inj.symm
  unfold decodeZero
  split_ifs <;> simp_all

theorem decodeEight_eq_illegal_iff : decodeEight w = .illegal e ↔
    DecodeError.unmapped = e ∧ w.toNat % 0x10 ∈ [0x8, 0x9, 0xA, 0xB, 0xC, 0xD, 0xF] := by
  have hn : w.toNat % 0x10 < 0x10 := Nat.mod_lt _ (by decide)
  rw [decodeEight, nOf_toNat]
  generalize w.toNat % 0x10 = n at hn ⊢
  interval_cases n <;> simp

theorem decodeXY_eq_illegal_iff (i : Instr) : decodeXY cfg w i = .illegal e ↔
    DecodeError.unmapped = e ∧ w.toNat % 0x10 ≠ 0 ∧ cfg.strictLowNibble = true := by
  rw [decodeXY_eq_ite, and_comm (a := _ ≠ _)]
  split <;> simp_all

theorem decodeF_eq_illegal_iff : decodeF cfg w = .illegal e ↔
    DecodeError.unmapped = e ∧ w.toNat % 0x100 ∉ [0x33, 0x55, 0x65] ∧ ¬(w.toNat % 0x100 = 0x1E ∧ cfg.hasAddToIndex = true) := by
  have hnn (b : Byte) : nnOf w = b ↔ w.toNat % 0x100 = b.toNat := by rw [← BitVec.toNat_inj, nnOf_toNat]
  simp only [decodeF, hnn]
  split_ifs <;> simp_all

/-! ### The illegal words (rule R87) -/

theorem decode_eq_illegal_iff : decode cfg w = .illegal e ↔
    (DecodeError.zeroNNN = e ∧ isZeroNNN w) ∨ (DecodeError.unmapped = e ∧ isUnmapped cfg w) := by
  have hfam : w.toNat / 0x1000 < 0x10 := by have := w.isLt; omega
  have hzero : w.toNat < 0x1000 ↔ w.toNat / 0x1000 = 0 := by omega
  rw [decode, opOf_toNat, isZeroNNN, isUnmapped, hzero]
  generalize w.toNat / 0x1000 = f at hfam ⊢
  interval_cases f <;>
    simp [decodeZero_eq_illegal_iff, decodeEight_eq_illegal_iff, decodeXY_eq_illegal_iff, decodeF_eq_illegal_iff]

theorem decode_eq_zeroNNN_iff : decode cfg w = .illegal .zeroNNN ↔ isZeroNNN w := by
  simp [decode_eq_illegal_iff]

theorem decode_eq_unmapped_iff : decode cfg w = .illegal .unmapped ↔ isUnmapped cfg w := by
  simp [decode_eq_illegal_iff]

end illegal

/-- The step of a running engine that is not cancelled and fetches an illegal word. -/
theorem step_of_decode_illegal {s : State} {w : Word} {e : DecodeError} (hs : s.status = .running)
    (hc : (s.cancel || s.move.cancel) = false) (hf : s.fetchWord = some w) (hd : decode s.cfg w = .illegal e) :
    step s = .next (s.boundary.advance.raise (DecodeError.fatal s.pc w e)) := by
  rcases step_cases hs with ⟨hc', -⟩ | ⟨-, hf', -⟩ | ⟨w', e', -, hf', hd', hstep⟩ | ⟨w', i, u, -, hf', hd', -⟩
  · rw [State.boundary_cancel, hc] at hc'
    cases hc'
  · cases hf.symm.trans hf'
  · cases hf.symm.trans hf'
    cases hd.symm.trans hd'
    exact hstep
  · cases hf.symm.trans hf'
    cases hd.symm.trans hd'

/-- Settles O4: the illegal words are classified along the family nibble, and fetching one raises its cause. -/
theorem illegalWordsAreExactly : Obligations.IllegalWordsAreExactly := by
  unfold Obligations.IllegalWordsAreExactly
  refine ⟨decode_eq_zeroNNN_iff, decode_eq_unmapped_iff, fun s w hs hc hf => ⟨fun hw => ?_, fun hw => ?_⟩⟩
  · exact ⟨_, s.pc, w, step_of_decode_illegal hs hc hf ((decode_eq_zeroNNN_iff s.cfg w).2 hw), rfl⟩
  · exact ⟨_, s.pc, w, step_of_decode_illegal hs hc hf ((decode_eq_unmapped_iff s.cfg w).2 hw), rfl⟩

/-- Settles O6: in each family the nibble picks the arm of `decode`, whose fields are the quotients and remainders. -/
theorem decodeByFamily : Obligations.DecodeByFamily := by
  intro cfg w x y n nn nnn strict
  have hx : xOf w = x := xOf_eq_ofNat w
  have hy : yOf w = y := yOf_eq_ofNat w
  have hn : (nOf w).toFin = Fin.ofNat 16 n := nOf_toFin_eq_ofNat w
  have hnn : nnOf w = nn := nnOf_eq_ofNat w
  have hnnn : nnnOf w = nnn := nnnOf_eq_ofNat w
  simp only [decode, opOf_toNat, hx, hy, hn, hnn, hnnn]
  refine ⟨?_, ?_, ?_, ?_, ?_, ?_, ?_, ?_, ?_, ?_, ?_, ?_, ?_, ?_, ?_, ?_⟩ <;> intro hfam <;> simp only [hfam]
  -- What is left are the families with a selector: 0, 5, 8, 9 and F.
  · rfl
  · exact decodeXY_eq_ite cfg w _
  · rw [decodeEight_eq_ite, hx, hy]
  · exact decodeXY_eq_ite cfg w _
  · rw [decodeF, hx, hnn]

/-- Settles O7: each fixture's bytes are the canonical word of its instruction (rule R82). -/
theorem decodeFixtures : Obligations.DecodeFixtures := by
  unfold Obligations.DecodeFixtures
  intro cfg
  refine ⟨rfl, ?_, ?_, ?_⟩
  · exact decode_draw cfg 3 2 8
  · exact decode_setIndexRegister cfg 0xDFF
  · exact decode_and cfg 0xA 3

end Sys2Proof.Machine

/-! PROOFS, 41_control_flow.md rules R120, R121 and R123 to R126: Return, Jump and the skips. The statements name pc after a
skip by its value and a word by its opcode base; the first two sections say once how these are the model's own. -/

namespace Sys2Proof.Machine

/-! ### The words of an opcode are the encoder's formats -/

theorem wordADDR_eq_encADDR {base : Word} (op : BitVec 4) (nnn : Addr12) (h : base = op.setWidth 16 <<< 12) :
    wordADDR base nnn = encADDR op nnn := by
  rw [h, encADDR_eq_wordADDR]

theorem wordXNN_eq_encXNN {base : Word} (op : BitVec 4) (x : Reg) (nn : Byte) (h : base = op.setWidth 16 <<< 12) :
    wordXNN base x nn = encXNN op x nn := by
  rw [h, encXNN_eq_wordXNN]

theorem wordXYN_eq_encXYN {base : Word} (op : BitVec 4) (x y : Reg) (n : BitVec 4) (h : base = op.setWidth 16 <<< 12) :
    wordXYN base x y n = encXYN op x y n := by
  rw [h, encXYN_eq_wordXYN]

/-! ### The values pc takes -/

theorem zextAddr_eq_ofNat (nnn : Addr12) : zextAddr nnn = BitVec.ofNat 16 nnn.toNat := by
  rw [zextAddr, BitVec.ofNat_toNat]

theorem add_two_eq_ofNat (pc : Word) : pc + 2 = BitVec.ofNat 16 (pc.toNat + 2) := by
  rw [BitVec.ofNat_add, BitVec.ofNat_toNat, BitVec.setWidth_eq]
  rfl

/-- A skip whose Boolean test decides `p`. -/
theorem State.skipIf_of_iff (s : State) {c : Bool} {p : Prop} [Decidable p] (h : c = true ↔ p) :
    s.skipIf c = { s with pc := if p then BitVec.ofNat 16 (s.pc.toNat + 2) else s.pc } := by
  simp only [State.skipIf_eq, State.goto, h, add_two_eq_ofNat]

/-! ### Return -/

theorem exec_ret_of_cons {s : State} {a : Word} {rest : List Word} (h : s.stack = a :: rest) :
    exec .ret s = .next { s with pc := a, stack := rest } := by
  rcases execReturn_cases s with ⟨a', rest', h', hexec⟩ | ⟨h', -⟩ <;> cases h.symm.trans h'
  exact hexec

theorem exec_ret_of_nil {s : State} (h : s.stack = []) :
    exec .ret s = .next (s.raise (.stackUnderflow s.fetchAddr (encode .ret))) := by
  rcases execReturn_cases s with ⟨a', rest', h', -⟩ | ⟨-, hexec⟩
  · cases h.symm.trans h'
  · exact hexec

/-- Settles O32, by the two cases of `execReturn`. -/
theorem returnPopsThePc : Obligations.ReturnPopsThePc := by
  unfold Obligations.ReturnPopsThePc
  refine ⟨fun cfg => rfl, fun s a rest h => exec_ret_of_cons h, fun s h => ?_⟩
  exact ⟨s.fetchAddr, encode .ret, exec_ret_of_nil h⟩

/-! ### Jump -/

/-- Settles O33: 1NNN is the encoder's word of Jump, and `zextAddr` keeps the address's value. -/
theorem jumpSetsThePc : Obligations.JumpSetsThePc := by
  unfold Obligations.JumpSetsThePc
  intro s a
  constructor
  · rw [wordADDR_eq_encADDR 0x1#4 a (by decide), decode_jump]
  · rw [← zextAddr_eq_ofNat]
    rfl

/-! ### The skips -/

/-- Settles O35: 3XNN and 4XNN are the encoder's words, and the test of each skip decides its condition. -/
theorem skipsOnAnImmediate : Obligations.SkipsOnAnImmediate := by
  unfold Obligations.SkipsOnAnImmediate
  intro s x nn
  refine ⟨?_, ?_, ?_, ?_⟩
  · rw [wordXNN_eq_encXNN 0x3#4 x nn (by decide), decode_skipEqualX]
  · rw [wordXNN_eq_encXNN 0x4#4 x nn (by decide), decode_skipNotEqualX]
  · exact congrArg Host.Outcome.next (s.skipIf_of_iff beq_iff_eq)
  · exact congrArg Host.Outcome.next (s.skipIf_of_iff bne_iff_ne)

/-- Settles O36: 5XYN and 9XYN are the encoder's words for every low nibble, and the test of each skip decides its
condition. -/
theorem skipsOnTwoRegisters : Obligations.SkipsOnTwoRegisters := by
  unfold Obligations.SkipsOnTwoRegisters
  intro s x y n
  refine ⟨?_, ?_, ?_, ?_⟩
  · rw [wordXYN_eq_encXYN 0x5#4 x y n (by decide), decode_skipEqualXY]
  · rw [wordXYN_eq_encXYN 0x9#4 x y n (by decide), decode_skipNotEqualXY]
  · exact congrArg Host.Outcome.next (s.skipIf_of_iff beq_iff_eq)
  · exact congrArg Host.Outcome.next (s.skipIf_of_iff bne_iff_ne)

end Sys2Proof.Machine

/-! PROOFS, 42_register_alu.md rules R141 to R153: the register and ALU instructions. The statements name a result and a flag by
exact arithmetic on the operands' values; the second section says once that these are the model's own bytes. -/

namespace Sys2Proof.Machine

/-! ### The words of family 8 -/

theorem wordXYN_8000 (x y : Reg) (n : BitVec 4) : wordXYN 0x8000 x y n = encXYN 0x8#4 x y n :=
  wordXYN_eq_encXYN 0x8#4 x y n (by decide)

/-! ### Results and flags as arithmetic on the operands' values -/

theorem add_eq_ofNat_mod (a b : Byte) : a + b = BitVec.ofNat 8 ((a.toNat + b.toNat) % 256) :=
  BitVec.eq_of_toNat_eq (by rw [BitVec.toNat_add, BitVec.toNat_ofNat, Nat.mod_mod])

theorem sub_eq_ofInt (a b : Byte) : a - b = BitVec.ofInt 8 ((a.toNat : Int) - b.toNat) := by
  simp [Int.sub_eq_add_neg, BitVec.ofInt_add, BitVec.ofInt_neg, BitVec.sub_eq_add_neg]

theorem shiftRight_one_eq_ofNat (a : Byte) : a >>> 1 = BitVec.ofNat 8 (a.toNat / 2) := by
  have := a.isLt
  exact BitVec.eq_of_toNat_eq (by rw [BitVec.toNat_ushiftRight, BitVec.toNat_ofNat, Nat.shiftRight_eq_div_pow]; omega)

theorem shiftLeft_one_eq_ofNat (a : Byte) : a <<< 1 = BitVec.ofNat 8 (a.toNat * 2 % 256) :=
  BitVec.eq_of_toNat_eq (by rw [BitVec.toNat_shiftLeft, BitVec.toNat_ofNat, Nat.shiftLeft_eq, Nat.mod_mod])

theorem flagByte_of_iff {c : Bool} {p : Prop} [Decidable p] (h : c = true ↔ p) :
    flagByte c = if p then 0x01 else 0x00 := by
  simp only [flagByte, h]

theorem carry_iff (a b : Byte) : carry a b = true ↔ a.toNat + b.toNat > 255 := decide_eq_true_iff

theorem noBorrow_iff (a b : Byte) : noBorrow a b = true ↔ a.toNat ≥ b.toNat := decide_eq_true_iff

theorem shiftedOutRight_iff (a : Byte) : shiftedOutRight a = true ↔ a.toNat % 2 = 1 := by
  simp [shiftedOutRight, BitVec.getLsbD]

theorem shiftedOutLeft_iff (a : Byte) : shiftedOutLeft a = true ↔ a.toNat ≥ 128 := by
  have h : shiftedOutLeft a = a.msb := rfl
  rw [h, BitVec.msb_eq_true_iff_two_mul_ge]
  omega

theorem State.shiftSource_toNat (s : State) (x y : Reg) : (s.shiftSource x y).toNat =
    if s.cfg.legacyShift = true then s.v[y.val].toNat else s.v[x.val].toNat :=
  apply_ite BitVec.toNat _ _ _

/-- A result in Vx, and after it a flag that decides `p` (rules R21, R151). -/
theorem State.setReg_setFlag_of_iff (s : State) (x : Reg) {r r' : Byte} {c : Bool} {p : Prop} [Decidable p] (hr : r = r')
    (hc : c = true ↔ p) : (s.setReg x r).setFlag c =
      { s with v := (s.v.set x.val r').set 15 (if p then 0x01 else 0x00) } := by
  rw [← flagByte_of_iff hc, ← hr]
  rfl

/-! ### Writes without a flag -/

/-- Settles O40: 6XNN and 7XNN are the encoder's words, and a byte sum is the sum modulo 256. -/
theorem immediateRegisterForms : Obligations.ImmediateRegisterForms := by
  unfold Obligations.ImmediateRegisterForms
  intro s x nn
  refine ⟨?_, ?_, rfl, ?_⟩
  · rw [wordXNN_eq_encXNN 0x6#4 x nn (by decide), decode_setRegister]
  · rw [wordXNN_eq_encXNN 0x7#4 x nn (by decide), decode_addValueToRegister]
  · rw [← add_eq_ofNat_mod]
    rfl

/-- Settles O41: 8XY0 to 8XY3 are the encoder's words, and each result is the model's own write of Vx. -/
theorem loadAndBitwiseForms : Obligations.LoadAndBitwiseForms := by
  unfold Obligations.LoadAndBitwiseForms
  intro s x y
  simp only [wordXYN_8000]
  exact ⟨decode_load .., decode_or .., decode_and .., decode_xor .., rfl, rfl, rfl, rfl⟩

/-! ### Writes with a flag -/

/-- Settles O42: the result is the byte sum, and the carry decides whether the exact sum exceeds 255. -/
theorem addWritesSumThenCarry : Obligations.AddWritesSumThenCarry := by
  unfold Obligations.AddWritesSumThenCarry
  intro s x y
  constructor
  · rw [wordXYN_8000]
    exact decode_add ..
  · rintro _ _ rfl rfl
    exact congrArg Host.Outcome.next (s.setReg_setFlag_of_iff x (add_eq_ofNat_mod _ _) (carry_iff _ _))

/-- Settles O43: the result is the byte difference, and no borrow decides the comparison of the operands. -/
theorem subWritesDifferenceThenNoBorrow : Obligations.SubWritesDifferenceThenNoBorrow := by
  unfold Obligations.SubWritesDifferenceThenNoBorrow
  intro s x y
  refine ⟨?_, ?_, ?_⟩
  · rw [wordXYN_8000]
    exact decode_sub ..
  · rw [wordXYN_8000]
    exact decode_subn ..
  · rintro _ _ rfl rfl
    constructor
    · exact congrArg Host.Outcome.next (s.setReg_setFlag_of_iff x (sub_eq_ofInt _ _) (noBorrow_iff _ _))
    · exact congrArg Host.Outcome.next (s.setReg_setFlag_of_iff x (sub_eq_ofInt _ _) (noBorrow_iff _ _))

/-- Settles O44: `a` is the value of the shift source under either setting, and the flag decides the bit shifted out of it. -/
theorem shiftsWriteResultThenBitOut : Obligations.ShiftsWriteResultThenBitOut := by
  unfold Obligations.ShiftsWriteResultThenBitOut
  intro s x y
  refine ⟨?_, ?_, ?_⟩
  · rw [wordXYN_8000]
    exact decode_shiftRight ..
  · rw [wordXYN_8000]
    exact decode_shiftLeft ..
  · intro a ha
    obtain rfl : a = (s.shiftSource x y).toNat := ha.trans (s.shiftSource_toNat x y).symm
    constructor
    · exact congrArg Host.Outcome.next (s.setReg_setFlag_of_iff x (shiftRight_one_eq_ofNat _) (shiftedOutRight_iff _))
    · exact congrArg Host.Outcome.next (s.setReg_setFlag_of_iff x (shiftLeft_one_eq_ofNat _) (shiftedOutLeft_iff _))

end Sys2Proof.Machine

/-! PROOFS, 43_index_memory.md rules R170 and R171: the two instructions that write I. -/

namespace Sys2Proof.Machine

/-- A byte added to a word: the sum of the values modulo 2^16 (rule R171). -/
theorem add_setWidth_eq_ofNat_mod (w : Word) (b : Byte) :
    w + b.setWidth 16 = BitVec.ofNat 16 ((w.toNat + b.toNat) % 65536) := by
  have hb : (b.setWidth 16).toNat = b.toNat := BitVec.toNat_setWidth_of_le (by decide)
  exact BitVec.eq_of_toNat_eq (by rw [BitVec.toNat_add, BitVec.toNat_ofNat, hb, Nat.mod_mod])

/-- Settles O46: ANNN is the encoder's word, and `zextAddr` keeps the address's value. -/
theorem setIndexRegisterWritesI : Obligations.SetIndexRegisterWritesI := by
  unfold Obligations.SetIndexRegisterWritesI
  intro s a
  constructor
  · rw [wordADDR_eq_encADDR 0xA#4 a (by decide), decode_setIndexRegister]
  · rw [← zextAddr_eq_ofNat]
    rfl

/-- Settles O47: FX1E is the encoder's word under either setting, and the word sum wraps at 2^16. -/
theorem addToIndexAddsToI : Obligations.AddToIndexAddsToI := by
  unfold Obligations.AddToIndexAddsToI
  intro s x
  constructor
  · rw [wordXNN_eq_encXNN 0xF#4 x _ (by decide)]
    exact decode_addToIndex ..
  · rw [← add_setWidth_eq_ofNat_mod]
    rfl

end Sys2Proof.Machine

/-! PROOFS, 70_reset_and_hazards.md rule R232: reset with an image above MAX_IMAGE bytes. -/

namespace Sys2Proof.Machine

/-- Before any write every cell has its content of rule R52. -/
@[simp] theorem State.peek_initial (cfg : Config) (a : Nat) : (State.initial cfg).peek a = resetByte cfg a := rfl

/-- MAX_IMAGE bounds the image whatever room memory has (log 22). -/
theorem State.boot_of_maxImage_lt {cfg : Config} {image : List Byte} (h : cfg.maxImage < image.length) :
    State.boot cfg image = (State.initial cfg).raise (.imageTooLarge image.length) :=
  if_pos (lt_of_le_of_lt (Nat.min_le_left ..) h)

/-- A fatal condition leaves no next cycle (rules R30, R204). -/
theorem step_raise_ne_next (s : State) (f : Fatal) (t : State) : step (s.raise f) ≠ .next t := by
  intro h
  have hrun := status_of_step_next h
  rw [State.raise_status] at hrun
  cases hrun

/-- Settles O27: reset raises the fatal condition in the state before any write, so memory holds its reset content. -/
theorem oversizedImageIsFatal : Obligations.OversizedImageIsFatal := by
  unfold Obligations.OversizedImageIsFatal
  intro cfg image hlen font
  rw [State.boot_of_maxImage_lt hlen]
  refine ⟨State.raise_status .., fun k hk => ?_, fun a ha => ?_, step_raise_ne_next _ _⟩
  · rw [State.peek_raise, State.peek_initial]
    exact resetByte_font cfg hk
  · rw [State.peek_raise, State.peek_initial]
    exact resetByte_other cfg ha

end Sys2Proof.Machine

/-! PROOFS, 30_encoding.md section 3: decode and encode against each other (rules R86, R88 and R90). Each format of the encoder
rebuilds a word from its fields, so that an arm of `decode` re-encodes to the word it read. -/

namespace Sys2Proof.Machine

/-- Settles O1: what each format decodes to, said once in Laws/Decode.lean, at the canonical word of each constructor. -/
theorem decodeInvertsEncode : Obligations.DecodeInvertsEncode := by
  unfold Obligations.DecodeInvertsEncode
  intro cfg i hwf
  cases i with
  | clearScreen | ret => rfl
  | jump nnn => exact decode_jump cfg nnn
  | call nnn => exact decode_call cfg nnn
  | skipEqualX x nn => exact decode_skipEqualX cfg x nn
  | skipNotEqualX x nn => exact decode_skipNotEqualX cfg x nn
  | skipEqualXY x y => exact (decode_skipEqualXY cfg x y 0).trans (if_neg fun h => h.1 rfl)
  | setRegister x nn => exact decode_setRegister cfg x nn
  | addValueToRegister x nn => exact decode_addValueToRegister cfg x nn
  | load x y => exact decode_load cfg x y
  | or x y => exact decode_or cfg x y
  | and x y => exact decode_and cfg x y
  | xor x y => exact decode_xor cfg x y
  | add x y => exact decode_add cfg x y
  | sub x y => exact decode_sub cfg x y
  | shiftRight x y => exact decode_shiftRight cfg x y
  | subn x y => exact decode_subn cfg x y
  | shiftLeft x y => exact decode_shiftLeft cfg x y
  | skipNotEqualXY x y => exact (decode_skipNotEqualXY cfg x y 0).trans (if_neg fun h => h.1 rfl)
  | setIndexRegister nnn => exact decode_setIndexRegister cfg nnn
  | draw x y n => exact decode_draw cfg x y n
  | binaryCodedDecimal x => exact decode_binaryCodedDecimal cfg x
  | storeRegisters x => exact decode_storeRegisters cfg x
  | readIntoRegisters x => exact decode_readIntoRegisters cfg x
  | addToIndex x => exact (decode_addToIndex cfg x).trans (if_pos hwf)

/-- Settles O3: the bases of rule R90 are the family nibbles in place. -/
theorem canonicalWords : Obligations.CanonicalWords := by
  unfold Obligations.CanonicalWords
  refine ⟨rfl, rfl, fun a => ⟨?_, ?_, ?_⟩, fun x k => ⟨?_, ?_, ?_, ?_⟩,
    fun x y => ⟨?_, ?_, ?_, ?_, ?_, ?_, ?_, ?_, ?_, ?_, ?_⟩, fun x y n => ?_, fun x => ⟨?_, ?_, ?_, ?_⟩⟩
  iterate 3 exact encADDR_eq_wordADDR _ a
  iterate 4 exact encXNN_eq_wordXNN _ x k
  iterate 11 exact encXYN_eq_wordXYN _ x y _
  · rw [← BitVec.ofFin_eq_ofNat]
    exact encXYN_eq_wordXYN _ x y _
  iterate 4 exact encXNN_eq_wordXNN _ x _

/-- Settles O8: the two parameters are the only ones that an arm of `decode` reads. -/
theorem decodeReadsTwoParameters : Obligations.DecodeReadsTwoParameters := by
  unfold Obligations.DecodeReadsTwoParameters
  intro c d w hadd hstrict
  have hXY : ∀ i, decodeXY c w i = decodeXY d w i := fun i => by rw [decodeXY, decodeXY, hstrict]
  have hF : decodeF c w = decodeF d w := by rw [decodeF, decodeF, hadd]
  simp only [decode, hXY, hF]

/-! ### A word of a known family is rebuilt from its fields -/

theorem encADDR_of_op {w : Word} {op : BitVec 4} (hop : (opOf w).toNat = op.toNat) : encADDR op (nnnOf w) = w := by
  rw [← BitVec.eq_of_toNat_eq hop, encADDR_fields]

theorem encXNN_of_op {w : Word} {op : BitVec 4} {nn : Byte} (hop : (opOf w).toNat = op.toNat) (hnn : nnOf w = nn) :
    encXNN op (xOf w) nn = w := by
  rw [← BitVec.eq_of_toNat_eq hop, ← hnn, encXNN_fields]

theorem encXYN_of_op {w : Word} {op n : BitVec 4} (hop : (opOf w).toNat = op.toNat) (hn : (nOf w).toNat = n.toNat) :
    encXYN op (xOf w) (yOf w) n = w := by
  rw [← BitVec.eq_of_toNat_eq hop, ← BitVec.eq_of_toNat_eq hn, encXYN_fields]

/-- The bits of the mask 0xFFF0 are all but the low nibble. -/
theorem and_FFF0 (w : Word) : w &&& 0xFFF0#16 = encXYN (opOf w) (xOf w) (yOf w) 0 := by
  have hx : (BitVec.ofFin (xOf w) : BitVec 4) = w.extractLsb' 8 4 := rfl
  have hy : (BitVec.ofFin (yOf w) : BitVec 4) = w.extractLsb' 4 4 := rfl
  rw [encXYN, hx, hy, opOf]
  apply BitVec.eq_of_getLsbD_eq
  intro k hk
  simp only [BitVec.getLsbD_and, BitVec.getLsbD_append]
  interval_cases k <;> simp

/-! ### The families whose selector picks the instruction -/

/-- What rule R90 says of a word `w` that decodes to `i`. -/
def Reencodes (cfg : Config) (w : Word) (i : Instr) : Prop :=
  i.wellFormed cfg = true ∧
  (encode i = w ∨
    (w.toNat / 0x1000 ∈ [0x5, 0x9] ∧ w.toNat % 0x10 ≠ 0 ∧ cfg.strictLowNibble = false ∧ encode i = w &&& 0xFFF0))

section families

variable {cfg : Config} {w : Word} {i : Instr}

theorem reencodes_of_decodeZero (h : decodeZero w = .ok i) : Reencodes cfg w i := by
  unfold decodeZero at h
  split_ifs at h with hcls hret
  · cases h
    exact ⟨rfl, .inl hcls.symm⟩
  · cases h
    exact ⟨rfl, .inl hret.symm⟩

theorem reencodes_of_decodeEight (hop : (opOf w).toNat = 0x8) (h : decodeEight w = .ok i) : Reencodes cfg w i := by
  unfold decodeEight at h
  split at h
  case h_10 => cases h
  all_goals
    next hn =>
      cases h
      exact ⟨rfl, .inl (encXYN_of_op hop hn)⟩

theorem reencodes_of_decodeF (hop : (opOf w).toNat = 0xF) (h : decodeF cfg w = .ok i) : Reencodes cfg w i := by
  unfold decodeF at h
  split_ifs at h with h33 h55 h65 h1E
  · cases h
    exact ⟨rfl, .inl (encXNN_of_op hop h33)⟩
  · cases h
    exact ⟨rfl, .inl (encXNN_of_op hop h55)⟩
  · cases h
    exact ⟨rfl, .inl (encXNN_of_op hop h65)⟩
  · cases h
    exact ⟨h1E.2, .inl (encXNN_of_op hop h1E.1)⟩

/-- Rule R88: `j` is the instruction of the family, which re-encodes with a zero low nibble. -/
theorem reencodes_of_decodeXY {j : Instr} (hfam : (opOf w).toNat ∈ [0x5, 0x9]) (hj : j.wellFormed cfg = true)
    (henc : encode j = encXYN (opOf w) (xOf w) (yOf w) 0) (h : decodeXY cfg w j = .ok i) : Reencodes cfg w i := by
  rw [decodeXY_eq_ite] at h
  split at h
  · cases h
  · next hstrict =>
    cases h
    refine ⟨hj, ?_⟩
    by_cases hn : w.toNat % 0x10 = 0
    · exact .inl (henc.trans (encXYN_of_op rfl ((nOf_toNat w).trans hn)))
    · refine .inr ⟨opOf_toNat w ▸ hfam, hn, ?_, henc.trans (and_FFF0 w).symm⟩
      exact Bool.eq_false_iff.2 fun hs => hstrict ⟨hs, hn⟩

/-- Every word that decodes re-encodes as rule R90 says, along the arms of `decode`. -/
theorem reencodes_of_decode (h : decode cfg w = .ok i) : Reencodes cfg w i := by
  unfold decode at h
  split at h
  case h_1 => exact reencodes_of_decodeZero h
  case h_6 hop =>
    refine reencodes_of_decodeXY (by simp [hop]) rfl ?_ h
    rw [BitVec.eq_of_toNat_eq (y := 0x5#4) hop]
    rfl
  case h_9 hop => exact reencodes_of_decodeEight hop h
  case h_10 hop =>
    refine reencodes_of_decodeXY (by simp [hop]) rfl ?_ h
    rw [BitVec.eq_of_toNat_eq (y := 0x9#4) hop]
    rfl
  case h_12 hop =>
    cases h
    exact ⟨rfl, .inl (encXYN_of_op hop rfl)⟩
  case h_13 hop => exact reencodes_of_decodeF hop h
  case h_14 => cases h
  case h_2 hop | h_3 hop | h_11 hop =>
    cases h
    exact ⟨rfl, .inl (encADDR_of_op hop)⟩
  case h_4 hop | h_5 hop | h_7 hop | h_8 hop =>
    cases h
    exact ⟨rfl, .inl (encXNN_of_op hop rfl)⟩

end families

theorem wellFormed_of_decode {cfg : Config} {w : Word} {i : Instr} (h : decode cfg w = .ok i) : i.wellFormed cfg = true :=
  (reencodes_of_decode h).1

/-- Settles O2, along the arms of `decode`. -/
theorem encodeInvertsDecode : Obligations.EncodeInvertsDecode := by
  unfold Obligations.EncodeInvertsDecode
  exact fun cfg w i => reencodes_of_decode

end Sys2Proof.Machine

/-! PROOFS, what an instruction leaves alone: one frame for all 25 (10_state.md sections 1 to 6, 20_memory.md section 1), and from
it the frames of the four spec files. -/

namespace Sys2Proof.Machine

/-! ### The frame of an instruction -/

/-- What `i` leaves as it was, whether it has its effect or is fatal. A field that is not given is left alone by `rfl`. -/
structure ExecFrame (i : Instr) (s t : State) : Prop where
  reg : ∀ r, writesReg i r = false → ¬(r = 15 ∧ writesFlag i = true) → t.reg r = s.reg r := by intros; rfl
  mem : storedBytes i = 0 → t.mem = s.mem := by intros; rfl
  index : (∀ a, i ≠ .setIndexRegister a) → (∀ x, i ≠ .addToIndex x) → t.i = s.i := by intros; rfl
  stack : i ≠ .ret → (∀ a, i ≠ .call a) → t.stack = s.stack := by intros; rfl
  pc : family i ≠ .controlFlow → t.pc = s.pc := by intros; rfl
  fb : family i ≠ .display → t.fb = s.fb := by intros; rfl
  changed : family i ≠ .display → t.changed = s.changed := by intros; rfl

theorem ExecFrame.raise (i : Instr) (s : State) (f : Fatal) : ExecFrame i s (s.raise f) where

theorem State.reg_setReg_of_beq_false (s : State) {x r : Reg} (b : Byte) (h : (r == x) = false) :
    (s.setReg x b).reg r = s.reg r := by
  rw [State.reg_setReg, if_neg (beq_eq_false_iff_ne.1 h)]

theorem exec_frame {i : Instr} {s t : State} (h : exec i s = .next t) : ExecFrame i s t := by
  rcases exec_cases i s with ⟨f, h'⟩ | h'
  · cases h.symm.trans h'
    exact .raise i s f
  cases i with
  | clearScreen =>
    cases h.symm.trans h'
    split <;> exact { fb := fun hf => absurd rfl hf, changed := fun hf => absurd rfl hf }
  | ret =>
    obtain ⟨a, rest, -, h'⟩ := h'
    cases h.symm.trans h'
    exact { stack := fun hi => absurd rfl hi, pc := fun hf => absurd rfl hf }
  | jump nnn =>
    cases h.symm.trans h'
    exact { pc := fun hf => absurd rfl hf }
  | call nnn =>
    cases h.symm.trans h'.2
    exact { stack := fun _ hi => absurd rfl (hi nnn), pc := fun hf => absurd rfl hf }
  | skipEqualX | skipNotEqualX | skipEqualXY | skipNotEqualXY =>
    rcases h' with h' | h' <;> cases h.symm.trans h' <;> exact { pc := fun hf => absurd rfl hf }
  | setRegister | addValueToRegister | load | or | and | xor =>
    obtain ⟨b, h'⟩ := h'
    cases h.symm.trans h'
    exact { reg := fun r hr _ => s.reg_setReg_of_beq_false b hr }
  | add | sub | subn | shiftRight | shiftLeft =>
    obtain ⟨b, c, h'⟩ := h'
    cases h.symm.trans h'
    refine { reg := fun r hr hflag => ?_ }
    rw [State.reg_setFlag, if_neg fun hr15 => hflag ⟨hr15, rfl⟩, s.reg_setReg_of_beq_false b hr]
  | setIndexRegister nnn =>
    cases h.symm.trans h'
    exact { index := fun hi _ => absurd rfl (hi nnn) }
  | addToIndex x =>
    cases h.symm.trans h'
    exact { index := fun _ hi => absurd rfl (hi x) }
  | draw x y n =>
    cases h.symm.trans h'.2
    refine { reg := fun r _ hflag => ?_, fb := fun hf => absurd rfl hf, changed := fun hf => absurd rfl hf }
    rw [State.afterDraw, State.reg_setChanged, State.reg_setFlag, if_neg fun hr15 => hflag ⟨hr15, rfl⟩, State.reg_setFb]
  | binaryCodedDecimal x =>
    cases h.symm.trans h'.2
    exact { mem := nofun }
  | storeRegisters x =>
    cases h.symm.trans h'.2
    obtain ⟨m, hm⟩ := s.storeRegs_frame (x.val + 1)
    rw [hm]
    exact { mem := nofun }
  | readIntoRegisters x =>
    cases h.symm.trans h'.2
    obtain ⟨v, hv⟩ := s.readRegs_frame (x.val + 1)
    have hreg : ∀ r, writesReg (.readIntoRegisters x) r = false → (s.readRegs (x.val + 1)).reg r = s.reg r := by
      intro r hr
      rw [State.reg_readRegs s x.isLt, if_neg fun hlt => of_decide_eq_false hr (Nat.le_of_lt_succ hlt)]
    rw [hv] at hreg ⊢
    exact { reg := fun r hr _ => hreg r hr }

/-- An instruction that stores no byte leaves every byte as it was. -/
theorem exec_peek_of_no_store {i : Instr} {s t : State} (h : exec i s = .next t) (hi : storedBytes i = 0) (a : Nat) :
    t.peek a = s.peek a :=
  State.peek_congr ((exec_frame h).mem hi) (exec_untouched h).cfg a

/-- The run status changes only where it is all that changes (rule R202). -/
theorem exec_status {i : Instr} {s t : State} (h : exec i s = .next t) :
    t.status = s.status ∨ t = { s with status := t.status } := by
  rcases (exec_untouched h).status with hs | ⟨f, rfl⟩
  · exact .inl hs
  · exact .inr rfl

/-! ### What the instructions of a spec file can write -/

theorem family_eq_display_iff {i : Instr} : family i = .display ↔ i = .clearScreen ∨ ∃ x y n, i = .draw x y n := by
  cases i <;> simp [family]

theorem storedBytes_of_alu {i : Instr} (h : family i = .alu) : storedBytes i = 0 := by
  cases i <;> simp_all [family, storedBytes]

theorem writes_of_controlFlow {i : Instr} (h : family i = .controlFlow) :
    (∀ r, writesReg i r = false) ∧ writesFlag i = false ∧ storedBytes i = 0 := by
  cases i <;> simp_all [family, writesReg, writesFlag, storedBytes]

theorem writesFlag_of_indexMemory {i : Instr} (h : family i = .indexMemory) : writesFlag i = false := by
  cases i <;> simp_all [family, writesFlag]

/-! ### The frames of the spec files -/

/-- Settles O31: ClearScreen and Draw name no destination register and store no byte. -/
theorem displayFrame : Obligations.DisplayFrame := by
  unfold Obligations.DisplayFrame
  intro i s t hfam h
  have hf := exec_frame h
  have hu := exec_untouched h
  have hmem := exec_peek_of_no_store h
  have hstatus := exec_status h
  rcases family_eq_display_iff.1 hfam with rfl | ⟨x, y, n, rfl⟩ <;>
    exact ⟨fun r => hf.reg r rfl, hf.index nofun nofun, hf.pc nofun, hf.stack nofun nofun, hu.dt, hu.st, hmem rfl, hu.cancel,
      hu.cfg, hu.env, hu.frames, hstatus⟩

/-- Settles O39: Return, Jump, Call and the skips write no register and store no byte. -/
theorem controlFlowFrame : Obligations.ControlFlowFrame := by
  unfold Obligations.ControlFlowFrame
  intro i s t hfam h
  have hf := exec_frame h
  have hu := exec_untouched h
  obtain ⟨hreg, hflag, hstored⟩ := writes_of_controlFlow hfam
  have hset : ∀ a, i ≠ .setIndexRegister a := by rintro a rfl; cases hfam
  have hadd : ∀ x, i ≠ .addToIndex x := by rintro x rfl; cases hfam
  have hdisplay : family i ≠ .display := hfam ▸ nofun
  exact ⟨fun r => hf.reg r (hreg r) (by simp [hflag]), hf.index hset hadd, hf.stack, hu.dt, hu.st,
    exec_peek_of_no_store h hstored, hf.fb hdisplay, hf.changed hdisplay, hu.cancel, hu.cfg, hu.env, hu.frames, exec_status h⟩

/-- A register or ALU instruction writes the register file alone. -/
theorem exec_alu_eq {i : Instr} {s t : State} (hfam : family i = .alu) (h : exec i s = .next t) : t = { s with v := t.v } := by
  cases i with
  | setRegister | addValueToRegister | load | or | and | xor | add | sub | subn | shiftRight | shiftLeft =>
    cases h
    rfl
  | _ => cases hfam

/-- Settles O45: in the register file only the destination and, in a flag writer, VF change. -/
theorem aluFrame : Obligations.AluFrame := by
  unfold Obligations.AluFrame
  intro i s t hfam h
  exact ⟨(exec_frame h).reg, exec_peek_of_no_store h (storedBytes_of_alu hfam), exec_alu_eq hfam h⟩

/-! ### VF (10_state.md section 1, 90_conflicts.md C2) -/

theorem flagByte_eq (b : Bool) : flagByte b = 0x00 ∨ flagByte b = 0x01 := by
  cases b
  · exact .inl rfl
  · exact .inr rfl

@[simp] theorem State.reg_setFlag_15 (s : State) (b : Bool) : (s.setFlag b).reg 15 = flagByte b := by
  rw [State.reg_setFlag, if_pos rfl]

/-- A flag writer that is not fatal leaves a flag in VF, its last write. -/
theorem exec_reg_15_of_writesFlag {i : Instr} {s t : State} (hi : writesFlag i = true) (h : exec i s = .next t)
    (ht : t.status = .running) : ∃ b, t.reg 15 = flagByte b := by
  cases i with
  | add | sub | subn | shiftRight | shiftLeft =>
    cases h
    exact ⟨_, State.reg_setFlag_15 ..⟩
  | draw x y n =>
    rcases exec_cases (.draw x y n) s with ⟨f, h'⟩ | ⟨-, h'⟩ <;> cases h.symm.trans h'
    · cases ht
    · exact ⟨_, State.reg_setFlag_15 ..⟩
  | _ => cases hi

/-- Settles O20: a flag is the last write of a flag writer, and the frame leaves VF alone in the others. -/
theorem flagRegisterWriters : Obligations.FlagRegisterWriters := by
  unfold Obligations.FlagRegisterWriters
  intro i s t _ h ht
  constructor
  · intro hflag
    obtain ⟨b, hb⟩ := exec_reg_15_of_writesFlag hflag h ht
    exact hb ▸ flagByte_eq b
  · intro hflag hreg
    exact (exec_frame h).reg 15 hreg (by simp [hflag])

end Sys2Proof.Machine

/-! PROOFS, 20_memory.md section 2 and 43_index_memory.md: the fatal conditions of an instruction, and BinaryCodedDecimal,
StoreRegisters and ReadIntoRegisters, the bytes they store being `State.storedByte`. -/

namespace Sys2Proof.Machine

/-! ### The fatal conditions of an instruction (60_exceptions.md section 1) -/

/-- A bounds check that fails halts with MEM_OUT_OF_RANGE alone. -/
theorem State.guardRange_halted {s t go : State} {i : Instr} {count : Nat} {f : Fatal} (hgo : go.status = .running)
    (h : s.guardRange i count go = .next t) (ht : t.status = .halted f) :
    t = s.raise f ∧ ∃ ea, ea ≥ s.cfg.memSize ∧ f = .memOutOfRange s.fetchAddr (encode i) ea := by
  rcases s.guardRange_cases i count go with ⟨-, h'⟩ | ⟨ea, hea, h'⟩ <;> cases h.symm.trans h'
  · cases hgo.symm.trans ht
  · cases ht
    obtain ⟨-, -, rfl⟩ := State.firstOutOfRange_eq_some.1 hea
    exact ⟨rfl, _, Nat.le_max_right .., rfl⟩

/-- Settles O13: Return, Call and the bounds check are all that raise; every other instruction keeps the run status. -/
theorem executeFaultWritesNothing : Obligations.ExecuteFaultWritesNothing := by
  unfold Obligations.ExecuteFaultWritesNothing
  intro i s t f hs h ht
  have hkeeps : t.status ≠ s.status := by rw [hs, ht]; nofun
  cases i with
  | ret =>
    rcases execReturn_cases s with ⟨a, rest, -, h'⟩ | ⟨-, h'⟩ <;> cases h.symm.trans h'
    · exact absurd rfl hkeeps
    · cases ht
      exact ⟨rfl, .inl ⟨rfl, rfl⟩⟩
  | call nnn =>
    rcases execCall_cases nnn s with ⟨-, h'⟩ | ⟨-, h'⟩ <;> cases h.symm.trans h'
    · exact absurd rfl hkeeps
    · cases ht
      exact ⟨rfl, .inr (.inl ⟨⟨nnn, rfl⟩, rfl⟩)⟩
  | draw x y n =>
    obtain ⟨ht, hf⟩ := State.guardRange_halted (go := s.afterDraw x y n) hs h ht
    exact ⟨ht, .inr (.inr ⟨.inl ⟨x, y, n, rfl⟩, hf⟩)⟩
  | binaryCodedDecimal x =>
    obtain ⟨ht, hf⟩ := State.guardRange_halted (go := s.afterBcd x) hs h ht
    exact ⟨ht, .inr (.inr ⟨.inr (.inl ⟨x, rfl⟩), hf⟩)⟩
  | storeRegisters x =>
    obtain ⟨ht, hf⟩ := State.guardRange_halted ((s.storeRegs_status _).trans hs) h ht
    exact ⟨ht, .inr (.inr ⟨.inr (.inr (.inl ⟨x, rfl⟩)), hf⟩)⟩
  | readIntoRegisters x =>
    obtain ⟨ht, hf⟩ := State.guardRange_halted ((s.readRegs_status _).trans hs) h ht
    exact ⟨ht, .inr (.inr ⟨.inr (.inr (.inr ⟨x, rfl⟩)), hf⟩)⟩
  | clearScreen =>
    cases h
    exact absurd (by split <;> rfl) hkeeps
  | skipEqualX | skipNotEqualX | skipEqualXY | skipNotEqualXY =>
    cases h
    exact absurd (by rw [State.skipIf_eq, State.goto_status]) hkeeps
  | jump | setRegister | addValueToRegister | load | or | and | xor | add | sub | subn | shiftRight | shiftLeft
    | setIndexRegister | addToIndex =>
    cases h
    exact absurd rfl hkeeps

/-- Settles O14: all four forms begin with the bounds check, which names the first address past memory. -/
theorem memOutOfRangeWritesNothing : Obligations.MemOutOfRangeWritesNothing := by
  unfold Obligations.MemOutOfRangeWritesNothing
  intro s i count hi k hk hout hfirst
  have hguard : ∃ go, exec i s = s.guardRange i count go := by
    rcases hi with ⟨x, y, n, rfl, rfl⟩ | ⟨x, rfl, rfl⟩ | ⟨x, rfl, rfl⟩ | ⟨x, rfl, rfl⟩ <;> exact ⟨_, rfl⟩
  have hea : max s.i.toNat s.cfg.memSize = s.i.toNat + k := by
    cases k with
    | zero => exact Nat.max_eq_left hout
    | succ k =>
      have := hfirst k (Nat.lt_succ_self k)
      omega
  obtain ⟨go, hgo⟩ := hguard
  rw [hgo, s.guardRange_out i go (by omega) (by omega), hea]
  rfl

/-! ### The bytes that are stored -/

theorem State.storedByte_bcd_toNat (s : State) (x : Reg) (k : Nat) :
    (s.storedByte (.binaryCodedDecimal x) k).toNat = s.v[x.val].toNat / 10 ^ (2 - k) % 10 := by
  rw [State.storedByte, BitVec.toNat_ofNat]
  omega

/-- BinaryCodedDecimal leaves its digits at I, I + 1 and I + 2 and every other byte as it was. -/
theorem State.peek_afterBcd (s : State) (x : Reg) (a : Nat) :
    (s.afterBcd x).peek a =
      if s.i.toNat ≤ a ∧ a < s.i.toNat + 3 then s.storedByte (.binaryCodedDecimal x) (a - s.i.toNat) else s.peek a := by
  have hv := (s.reg x).isLt
  have h0 : hundreds (s.reg x) = s.storedByte (.binaryCodedDecimal x) 0 := by
    rw [hundreds, State.storedByte]
    exact congrArg _ (Nat.mod_eq_of_lt (a := (s.reg x).toNat / 100) (by omega)).symm
  have h1 : tens (s.reg x) = s.storedByte (.binaryCodedDecimal x) 1 := rfl
  have h2 : units (s.reg x) = s.storedByte (.binaryCodedDecimal x) 2 := by
    rw [units, State.storedByte, Nat.sub_self, pow_zero, Nat.div_one]
    rfl
  rw [State.afterBcd, State.peek_poke, State.peek_poke, State.peek_poke, h0, h1, h2]
  by_cases h : s.i.toNat ≤ a ∧ a < s.i.toNat + 3
  · rw [if_pos h]
    obtain ⟨k, hk, rfl⟩ : ∃ k < 3, a = s.i.toNat + k := ⟨a - s.i.toNat, by omega, by omega⟩
    rw [Nat.add_sub_cancel_left]
    interval_cases k <;> simp
  · rw [if_neg h, if_neg (by omega), if_neg (by omega), if_neg (by omega)]

/-- The instructions that store bytes (rules R172, R173). -/
def Stores (i : Instr) : Prop := (∃ x, i = .binaryCodedDecimal x) ∨ ∃ x, i = .storeRegisters x

theorem storedBytes_eq_zero_or_stores (i : Instr) : storedBytes i = 0 ∨ Stores i := by
  cases i with
  | binaryCodedDecimal x => exact .inr (.inl ⟨x, rfl⟩)
  | storeRegisters x => exact .inr (.inr ⟨x, rfl⟩)
  | _ => exact .inl rfl

/-- With its addresses in memory, an instruction that stores writes memory alone: its bytes from I on, and no other. -/
theorem exec_stores {s : State} {i : Instr} (hi : Stores i) (hfit : s.i.toNat + storedBytes i ≤ s.cfg.memSize) :
    ∃ t, exec i s = .next t ∧ t = { s with mem := t.mem } ∧ ∀ a, t.peek a =
      if s.i.toNat ≤ a ∧ a < s.i.toNat + storedBytes i then s.storedByte i (a - s.i.toNat) else s.peek a := by
  rcases hi with ⟨x, rfl⟩ | ⟨x, rfl⟩
  · exact ⟨s.afterBcd x, s.guardRange_in _ _ (.inr hfit), rfl, s.peek_afterBcd x⟩
  · refine ⟨s.storeRegs (x.val + 1), s.guardRange_in _ _ (.inr hfit), ?_, fun a => ?_⟩
    · obtain ⟨m, hm⟩ := s.storeRegs_frame (x.val + 1)
      rw [hm]
    · rw [State.peek_storeRegs s x.isLt]
      by_cases h : s.i.toNat ≤ a ∧ a < s.i.toNat + (x.val + 1)
      · have hmod : (a - s.i.toNat) % 16 = a - s.i.toNat := Nat.mod_eq_of_lt (by omega)
        rw [dif_pos h, storedBytes, if_pos h]
        simp only [State.storedByte, hmod]
      · rw [dif_neg h, storedBytes, if_neg h]

/-- The same with its effect read off the state answered. -/
theorem peek_of_exec_stores {s t : State} {i : Instr} (hi : Stores i) (hfit : s.i.toNat + storedBytes i ≤ s.cfg.memSize)
    (h : exec i s = .next t) : t = { s with mem := t.mem } ∧ ∀ a, t.peek a =
      if s.i.toNat ≤ a ∧ a < s.i.toNat + storedBytes i then s.storedByte i (a - s.i.toNat) else s.peek a := by
  obtain ⟨t', h', ht'⟩ := exec_stores hi hfit
  cases h.symm.trans h'
  exact ht'

/-- The bytes outside the stored ones stay, also where the instruction is fatal. -/
theorem exec_peek_of_outside {i : Instr} {s t : State} (h : exec i s = .next t) {a : Nat}
    (ha : a < s.i.toNat ∨ s.i.toNat + storedBytes i ≤ a) : t.peek a = s.peek a := by
  rcases storedBytes_eq_zero_or_stores i with hi | hi
  · exact exec_peek_of_no_store h hi a
  · by_cases hfit : s.i.toNat + storedBytes i ≤ s.cfg.memSize
    · rw [(peek_of_exec_stores hi hfit h).2 a, if_neg (by omega)]
    · have hout : ∃ f, exec i s = .next (s.raise f) := by
        rcases hi with ⟨x, rfl⟩ | ⟨x, rfl⟩ <;>
          exact ⟨_, s.guardRange_out _ _ (Nat.succ_ne_zero _) (Nat.lt_of_not_le hfit)⟩
      obtain ⟨f, hraise⟩ := hout
      cases h.symm.trans hraise
      rfl

/-! ### BinaryCodedDecimal, StoreRegisters and ReadIntoRegisters -/

/-- Settles O48: FX33 is the encoder's word, and the three stored bytes are the digits. -/
theorem bcdStoresTheDigits : Obligations.BcdStoresTheDigits := by
  unfold Obligations.BcdStoresTheDigits
  intro s x hin
  have hv := s.v[x.val].isLt
  obtain ⟨t, hexec, ht, hpeek⟩ := exec_stores (.inl ⟨x, rfl⟩) (show s.i.toNat + 3 ≤ s.cfg.memSize by omega)
  have hdigit : ∀ k < 3, (t.peek (s.i.toNat + k)).toNat = s.v[x.val].toNat / 10 ^ (2 - k) % 10 := by
    intro k hk
    rw [hpeek, if_pos ⟨by omega, by rw [storedBytes]; omega⟩, Nat.add_sub_cancel_left, State.storedByte_bcd_toNat]
  have h0 : (t.peek s.i.toNat).toNat = s.v[x.val].toNat / 100 % 10 := hdigit 0 (by decide)
  have h1 : (t.peek (s.i.toNat + 1)).toNat = s.v[x.val].toNat / 10 % 10 := hdigit 1 (by decide)
  have h2 : (t.peek (s.i.toNat + 2)).toNat = s.v[x.val].toNat / 1 % 10 := hdigit 2 (by decide)
  refine ⟨?_, t, hexec, ht, by omega, by omega, by omega, by omega, fun a ha => ?_⟩
  · rw [wordXNN_eq_encXNN 0xF#4 x _ (by decide)]
    exact decode_binaryCodedDecimal ..
  · exact exec_peek_of_outside hexec (by rw [storedBytes]; omega)

/-- Settles O49: FX55 is the encoder's word, and the stored bytes are V0 to Vx. -/
theorem storeRegistersStoresTheBlock : Obligations.StoreRegistersStoresTheBlock := by
  unfold Obligations.StoreRegistersStoresTheBlock
  intro s x hin
  obtain ⟨t, hexec, ht, hpeek⟩ := exec_stores (.inr ⟨x, rfl⟩) (show s.i.toNat + (x.val + 1) ≤ s.cfg.memSize by omega)
  refine ⟨?_, t, hexec, ht, fun k hk => ?_, fun a ha => ?_⟩
  · rw [wordXNN_eq_encXNN 0xF#4 x _ (by decide)]
    exact decode_storeRegisters ..
  · have hk' : k.val ≤ x.val := hk
    have hmod : k.val % 16 = k.val := Nat.mod_eq_of_lt k.isLt
    rw [hpeek, if_pos ⟨by omega, by rw [storedBytes]; omega⟩, Nat.add_sub_cancel_left]
    simp only [State.storedByte, hmod]
  · exact exec_peek_of_outside hexec (by rw [storedBytes]; omega)

/-- ReadIntoRegisters with its addresses in memory. -/
theorem exec_readIntoRegisters_in {s : State} {x : Reg} (hin : s.i.toNat + x.val < s.cfg.memSize) :
    exec (.readIntoRegisters x) s = .next (s.readRegs (x.val + 1)) :=
  s.guardRange_in _ _ (.inr hin)

theorem State.readRegs_getElem (s : State) (x k : Reg) :
    (s.readRegs (x.val + 1)).v[k.val] = if k ≤ x then s.peek (s.i.toNat + k.val) else s.v[k.val] := by
  simp only [Fin.le_def, ← Nat.lt_succ_iff]
  exact State.reg_readRegs s x.isLt k

/-- Settles O50: FX65 is the encoder's word, and the block load writes V0 to Vx. -/
theorem readIntoRegistersLoadsTheBlock : Obligations.ReadIntoRegistersLoadsTheBlock := by
  unfold Obligations.ReadIntoRegistersLoadsTheBlock
  intro s x hin
  refine ⟨?_, _, exec_readIntoRegisters_in hin, ?_, s.readRegs_getElem x⟩
  · rw [wordXNN_eq_encXNN 0xF#4 x _ (by decide)]
    exact decode_readIntoRegisters ..
  · obtain ⟨v, hv⟩ := s.readRegs_frame (x.val + 1)
    rw [hv]

/-- Settles O51: the block load reads back the stored bytes, I and the parameters being those of the store. -/
theorem storeThenReadRoundTrips : Obligations.StoreThenReadRoundTrips := by
  unfold Obligations.StoreThenReadRoundTrips
  intro s t x v hin hexec
  obtain ⟨-, t', hexec', ht, hstored, -⟩ := storeRegistersStoresTheBlock s x hin
  cases hexec.symm.trans hexec'
  have hi : t.i = s.i := by rw [ht]
  have hcfg : t.cfg = s.cfg := by rw [ht]
  refine ⟨_, exec_readIntoRegisters_in (s := { t with v := v }) (by rw [hi, hcfg]; exact hin), fun k => ?_⟩
  rw [State.readRegs_getElem]
  by_cases hk : k ≤ x
  · rw [if_pos hk, if_pos hk, ← hstored k hk, ← hi]
    rfl
  · rw [if_neg hk, if_neg hk]

/-! ### Fetching what was stored (20_memory.md section 5) -/

/-- A fetch reads the two bytes at pc, the high one first, where both are in memory (rules R55, R57). -/
theorem State.fetchWord_eq_some_iff {s : State} {w : Word} : s.fetchWord = some w ↔
    s.pc.toNat + 1 < s.cfg.memSize ∧ w.toNat = (s.peek s.pc.toNat).toNat * 256 + (s.peek (s.pc.toNat + 1)).toNat := by
  have hbytes : (wordOfBytes (s.peek s.pc.toNat) (s.peek (s.pc.toNat + 1))).toNat =
      (s.peek s.pc.toNat).toNat * 256 + (s.peek (s.pc.toNat + 1)).toNat := toNat_append_add _ _
  unfold State.fetchWord
  split
  · next hout => exact ⟨nofun, fun h => absurd h.1 (Nat.not_lt.2 hout)⟩
  · next hin =>
    rw [Option.some_inj, ← hbytes, BitVec.toNat_inj, eq_comm]
    exact ⟨fun h => ⟨Nat.lt_of_not_le hin, h⟩, And.right⟩

/-- Settles O52: a fetch reads memory, whose bytes after the store are the stored ones. -/
theorem storedBytesAreFetched : Obligations.StoredBytesAreFetched := by
  unfold Obligations.StoredBytesAreFetched
  intro s t i hi hfit hpc hexec byteAt
  obtain ⟨ht, hpeek⟩ := peek_of_exec_stores hi hfit hexec
  have hpc' : t.pc = s.pc := by rw [ht]
  have hcfg : t.cfg = s.cfg := by rw [ht]
  have hw : t.fetchWord = some (wordOfBytes (t.peek t.pc.toNat) (t.peek (t.pc.toNat + 1))) :=
    if_neg (by rw [hpc', hcfg]; exact Nat.not_le.2 hpc)
  refine ⟨_, hw, ?_⟩
  rw [(State.fetchWord_eq_some_iff.1 hw).2, hpc', hpeek, hpeek]

/-- Settles O53: the frame of an instruction, whose bytes outside the stored ones stay. -/
theorem indexMemoryFrame : Obligations.IndexMemoryFrame := by
  unfold Obligations.IndexMemoryFrame
  intro i s t hfam h
  have hf := exec_frame h
  have hu := exec_untouched h
  have hflag := writesFlag_of_indexMemory hfam
  have hcontrol : family i ≠ .controlFlow := hfam ▸ nofun
  have hdisplay : family i ≠ .display := hfam ▸ nofun
  have hret : i ≠ .ret := by rintro rfl; cases hfam
  have hcall : ∀ a, i ≠ .call a := by rintro a rfl; cases hfam
  exact ⟨fun r hr => hf.reg r hr (by simp [hflag]), fun a => exec_peek_of_outside h, hf.index, hf.pc hcontrol,
    hf.stack hret hcall, hu.dt, hu.st, hf.fb hdisplay, hf.changed hdisplay, hu.cancel, hu.cfg, hu.env, hu.frames,
    exec_status h⟩

end Sys2Proof.Machine

/-! PROOFS, 20_memory.md sections 3 and 4 and 60_exceptions.md: the phases of a cycle. The boundary has a closed form, and each way
a step can go (`step_cases`) is picked out by what it asks of the state. -/

namespace Sys2Proof.Machine

/-! ### The boundary -/

/-- Settles O10: `n` ticks subtract n from each timer, saturating at 0, and write nothing else. -/
theorem timerTicksSaturate : Obligations.TimerTicksSaturate := by
  unfold Obligations.TimerTicksSaturate
  intro s
  obtain ⟨d, e, hticks⟩ := State.ticks_frame s.move.ticks s
  have hd : d.toNat = s.dt.toNat - s.move.ticks := by simpa [hticks] using State.ticks_dt s.move.ticks s
  have he : e.toNat = s.st.toNat - s.move.ticks := by simpa [hticks] using State.ticks_st s.move.ticks s
  rw [State.boundary, hticks, ← hd, ← he, BitVec.ofNat_toNat, BitVec.ofNat_toNat, BitVec.setWidth_eq, BitVec.setWidth_eq]

theorem State.boundary_advance (s : State) : s.boundary.advance = { s.boundary with pc := s.pc + 2 } := by
  rw [State.advance, State.boundary_pc]

/-- The boundary of a machine to which nothing comes is the machine itself. -/
theorem State.boundary_of_env_nil {s : State} (h : s.env = []) : s.boundary = s := by
  have hmove : s.move = EnvMove.quiet := by rw [State.move, h]; rfl
  have hcancel : (s.cancel || EnvMove.quiet.cancel) = s.cancel := Bool.or_false _
  have htail : s.env.tail = s.env := by rw [h]; rfl
  rw [State.boundary, hmove, hcancel, htail]
  rfl

/-! ### Each way a step can go -/

/-- Settles O11: a cancellation is polled before the fetch. -/
theorem cancellationEndsTheRun : Obligations.CancellationEndsTheRun := by
  unfold Obligations.CancellationEndsTheRun
  intro s hs hc
  rcases step_cases hs with ⟨-, hstep⟩ | ⟨hc', -⟩ | ⟨w, e, hc', -⟩ | ⟨w, i, u, hc', -⟩
  · exact hstep
  all_goals cases hc.symm.trans hc'

theorem State.fetchWord_eq_none_iff {s : State} : s.fetchWord = none ↔ s.pc.toNat + 1 ≥ s.cfg.memSize := by
  simp [State.fetchWord]

/-- Settles O12: the fetch comes before the advance of pc. -/
theorem fetchOutOfRangeIsFatal : Obligations.FetchOutOfRangeIsFatal := by
  unfold Obligations.FetchOutOfRangeIsFatal
  intro s hs hc hout
  have hf := State.fetchWord_eq_none_iff.2 hout
  rcases step_cases hs with ⟨hc', -⟩ | ⟨-, -, hstep⟩ | ⟨w, e, -, hf', -⟩ | ⟨w, i, u, -, hf', -⟩
  · cases hc.symm.trans hc'
  · exact hstep
  · cases hf.symm.trans hf'
  · cases hf.symm.trans hf'

/-- Settles O5: decode comes after the advance of pc and raises. -/
theorem decodeFaultWritesNothing : Obligations.DecodeFaultWritesNothing := by
  unfold Obligations.DecodeFaultWritesNothing
  intro s w hs hc hf
  constructor <;> intro hw
  · rw [step_of_decode_illegal hs hc hf ((decode_eq_zeroNNN_iff s.cfg w).2 hw), State.boundary_advance]
    rfl
  · rw [step_of_decode_illegal hs hc hf ((decode_eq_unmapped_iff s.cfg w).2 hw), State.boundary_advance]
    rfl

/-- The step of a running engine that is not cancelled and fetches an instruction. -/
theorem step_of_decode_ok {s u : State} {w : Word} {i : Instr} (hs : s.status = .running)
    (hc : (s.cancel || s.move.cancel) = false) (hf : s.fetchWord = some w) (hd : decode s.cfg w = .ok i)
    (hu : exec i s.boundary.advance = .next u) : step s = .next (present s.pc w s.move.render u) := by
  rcases step_cases hs with ⟨hc', -⟩ | ⟨-, hf', -⟩ | ⟨w', e, -, hf', hd', -⟩ | ⟨w', i', u', -, hf', hd', hu', hstep⟩
  · cases hc.symm.trans hc'
  · cases hf.symm.trans hf'
  · cases hf.symm.trans hf'
    cases hd.symm.trans hd'
  · cases hf.symm.trans hf'
    cases hd.symm.trans hd'
    cases hu.symm.trans hu'
    exact hstep

/-- Settles O9: the fetched word is the two bytes at pc, and every instruction answers a next state. -/
theorem stepRunsTheDecodedInstruction : Obligations.StepRunsTheDecodedInstruction := by
  unfold Obligations.StepRunsTheDecodedInstruction
  intro s w i hs hc hpc hw hd
  rw [← State.boundary_advance]
  obtain ⟨u, hu⟩ := exec_next i s.boundary.advance
  exact ⟨u, hu, step_of_decode_ok hs hc (State.fetchWord_eq_some_iff.2 ⟨hpc, hw⟩) hd hu⟩

/-- Settles O17: each case of a running step answers a next state, and the other two statuses a fault. -/
theorem onlyRunningHasANextCycle : Obligations.OnlyRunningHasANextCycle := by
  unfold Obligations.OnlyRunningHasANextCycle
  intro s
  refine ⟨fun hs => ?_, fun f hs => ?_, fun hs => ?_⟩
  · rcases step_cases hs with ⟨-, h⟩ | ⟨-, -, h⟩ | ⟨w, e, -, -, -, h⟩ | ⟨w, i, u, -, -, -, -, h⟩ <;> exact ⟨_, h⟩
  · rw [step, stepState, hs]
  · rw [step, stepState, hs]

/-! ### The render phase (60_exceptions.md section 4) -/

/-- Settles O15, by the status, changed and the render's answer. -/
theorem displayContract : Obligations.DisplayContract := by
  unfold Obligations.DisplayContract
  intro u addr opcode hu
  refine ⟨fun hc => ?_, fun e hc => ?_, fun answer hc => ?_⟩ <;> simp only [present, hu, hc]

/-- The render phase writes changed, the run status and the frames handed over alone. -/
theorem present_frame (addr opcode : Word) (answer : Option RenderError) (u : State) :
    ∃ c r fs, present addr opcode answer u = { u with changed := c, status := r, frames := fs } := by
  rcases present_cases addr opcode answer u with ⟨-, h⟩ | ⟨-, -, -, h⟩ | ⟨e, -, -, -, h⟩ <;> exact ⟨_, _, _, h⟩

/-- `i` asks for a render: a Draw, or a ClearScreen under CLS_SETS_CHANGED (rule R110). -/
def Draws (cfg : Config) (i : Instr) : Prop := (∃ x y n, i = .draw x y n) ∨ (i = .clearScreen ∧ cfg.clsSetsChanged = true)

/-- From a clear changed flag, an instruction that raises nothing leaves it set exactly if it asks for a render. -/
theorem exec_changed_iff {i : Instr} {s t : State} (h : exec i s = .next t) (hs : s.changed = false)
    (ht : t.status = .running) : t.changed = true ↔ Draws s.cfg i := by
  by_cases hfam : family i = .display
  · rcases family_eq_display_iff.1 hfam with rfl | ⟨x, y, n, rfl⟩
    · cases h
      cases hcls : s.cfg.clsSetsChanged <;> simp [Draws, hcls, hs]
    · rcases exec_cases (.draw x y n) s with ⟨f, h'⟩ | ⟨-, h'⟩ <;> cases h.symm.trans h'
      · cases ht
      · exact ⟨fun _ => .inl ⟨x, y, n, rfl⟩, fun _ => rfl⟩
  · have hno : ¬ Draws s.cfg i := by
      rintro (⟨x, y, n, rfl⟩ | ⟨rfl, -⟩) <;> exact hfam rfl
    rw [(exec_frame h).changed hfam, hs]
    exact ⟨nofun, fun hi => absurd hi hno⟩

/-- Settles O16: changed is set exactly by the two instructions, and the render phase looks at nothing else. -/
theorem rendersExactly : Obligations.RendersExactly := by
  unfold Obligations.RendersExactly
  intro s t u w i hs hch hc hf hd hu hstep
  rw [← State.boundary_advance] at hu
  cases hstep.symm.trans (step_of_decode_ok hs hc hf hd hu)
  have hframes : u.frames = s.frames := by simpa using (exec_untouched hu).frames
  have hchanged : u.status = .running → (u.changed = true ↔ Draws s.cfg i) := by
    simpa [hch] using exec_changed_iff hu
  split
  · next hr =>
    have hset := (hchanged hr.1).2 hr.2
    rcases present_cases s.pc w s.move.render u with ⟨hno, -⟩ | ⟨-, -, -, h⟩ | ⟨e, -, -, -, h⟩
    · exact absurd ⟨hr.1, hset⟩ hno
    · rw [h, ← hframes]
      exact ⟨rfl, rfl⟩
    · rw [h, ← hframes]
      exact ⟨rfl, rfl⟩
  · next hr =>
    have hno : ¬(u.status = .running ∧ u.changed = true) := fun h => hr ⟨h.1, (hchanged h.1).1 h.2⟩
    rcases present_cases s.pc w s.move.render u with ⟨-, h⟩ | ⟨h1, h2, -⟩ | ⟨e, h1, h2, -⟩
    · rw [h]
      exact ⟨rfl, hframes⟩
    · exact absurd ⟨h1, h2⟩ hno
    · exact absurd ⟨h1, h2⟩ hno

/-! ### Which instructions write I, the stack, the frame buffer and memory -/

/-- A step that executes no instruction keeps I, the stack, the frame buffer and memory. -/
theorem step_writes_or_exec {s t : State} (h : step s = .next t) :
    (t.i = s.i ∧ t.stack = s.stack ∧ t.fb = s.fb ∧ t.mem = s.mem) ∨
    (∃ w i u, s.fetchWord = some w ∧ decode s.cfg w = .ok i ∧ exec i s.boundary.advance = .next u ∧
      t.i = u.i ∧ t.stack = u.stack ∧ t.fb = u.fb ∧ t.mem = u.mem) := by
  rcases step_cases (status_of_step_next h) with
    ⟨-, hstep⟩ | ⟨-, -, hstep⟩ | ⟨w, e, -, -, -, hstep⟩ | ⟨w, i, u, -, hf, hd, hu, hstep⟩ <;> cases hstep.symm.trans h
  · exact .inl ⟨s.boundary_i, s.boundary_stack, s.boundary_fb, s.boundary_mem⟩
  · exact .inl ⟨s.boundary_i, s.boundary_stack, s.boundary_fb, s.boundary_mem⟩
  · exact .inl ⟨s.boundary_i, s.boundary_stack, s.boundary_fb, s.boundary_mem⟩
  · obtain ⟨c, r, fs, hp⟩ := present_frame s.pc w s.move.render u
    rw [hp]
    exact .inr ⟨w, i, u, hf, hd, hu, rfl, rfl, rfl, rfl⟩

/-- Settles O21: a field that changed was written by the instruction, whose frame names the writers of each field. -/
theorem onlyNamedInstructionsWrite : Obligations.OnlyNamedInstructionsWrite := by
  unfold Obligations.OnlyNamedInstructionsWrite
  intro s t h
  rcases step_writes_or_exec h with ⟨hi, hstack, hfb, hmem⟩ | ⟨w, i, u, hf, hd, hu, hi, hstack, hfb, hmem⟩
  · exact ⟨absurd hi, absurd hstack, absurd hfb, fun a => absurd (State.peek_congr hmem (step_cfg h) a)⟩
  have hframe := exec_frame hu
  have hcfg : t.cfg = s.cfg := step_cfg h
  refine ⟨fun hne => ?_, fun hne => ?_, fun hne => ?_, fun a hne => ?_⟩ <;> by_contra hno
  · have hu_i := hframe.index (fun a e => hno ⟨w, hf, .inl ⟨a, e ▸ hd⟩⟩) fun x e => hno ⟨w, hf, .inr ⟨x, e ▸ hd⟩⟩
    exact hne (hi.trans (hu_i.trans s.boundary_i))
  · have hu_stack := hframe.stack (fun e => hno ⟨w, hf, .inr (e ▸ hd)⟩) fun a e => hno ⟨w, hf, .inl ⟨a, e ▸ hd⟩⟩
    exact hne (hstack.trans (hu_stack.trans s.boundary_stack))
  · have hfam : family i ≠ .display := fun hfam => by
      rcases family_eq_display_iff.1 hfam with rfl | ⟨x, y, n, rfl⟩
      · exact hno ⟨w, hf, .inl hd⟩
      · exact hno ⟨w, hf, .inr ⟨x, y, n, hd⟩⟩
    exact hne (hfb.trans ((hframe.fb hfam).trans s.boundary_fb))
  · rcases storedBytes_eq_zero_or_stores i with hstored | ⟨x, rfl⟩ | ⟨x, rfl⟩
    · exact hne (State.peek_congr (hmem.trans ((hframe.mem hstored).trans s.boundary_mem)) hcfg a)
    · exact hno ⟨w, hf, .inl ⟨x, hd⟩⟩
    · exact hno ⟨w, hf, .inr ⟨x, hd⟩⟩

end Sys2Proof.Machine

/-! PROOFS, 60_exceptions.md section 3: no instruction and no phase of a cycle reads DT or ST. A commuting diagram as for the quirk
flag: putting other timers in place commutes with every operation an instruction is made of, with `exec`, with the phases of a
cycle, and with `step`, the boundary alone putting in place what its ticks leave. -/

namespace Sys2Proof.Machine

/-- `s` with the timers `d` and `e`. -/
def State.withTimers (s : State) (d e : Byte) : State := { s with dt := d, st := e }

section timers

variable (s : State) (d e : Byte)

/-! ### The operations of an instruction -/

theorem State.storeRegs_withTimers (n : Nat) : (s.withTimers d e).storeRegs n = (s.storeRegs n).withTimers d e := by
  induction n with
  | zero => rfl
  | succ n ih => rw [State.storeRegs, ih]; rfl

theorem State.readRegs_withTimers (n : Nat) : (s.withTimers d e).readRegs n = (s.readRegs n).withTimers d e := by
  induction n with
  | zero => rfl
  | succ n ih =>
    rw [State.readRegs, State.readRegs, ih]
    split <;> rfl

theorem State.skipIf_withTimers (c : Bool) : (s.withTimers d e).skipIf c = (s.skipIf c).withTimers d e := by
  cases c <;> rfl

theorem State.guardRange_withTimers (i : Instr) (count : Nat) (go : State) :
    (s.withTimers d e).guardRange i count (go.withTimers d e) = mapNext (·.withTimers d e) (s.guardRange i count go) := by
  have hsame : (s.withTimers d e).firstOutOfRange count = s.firstOutOfRange count := rfl
  rw [State.guardRange, State.guardRange, hsame]
  cases s.firstOutOfRange count <;> rfl

/-! ### The diagram for an instruction and for the phases of a cycle -/

theorem exec_withTimers (i : Instr) : exec i (s.withTimers d e) = mapNext (·.withTimers d e) (exec i s) := by
  cases i with
  | clearScreen =>
    simp only [exec, execClearScreen, mapNext, apply_ite (State.withTimers · d e)]
    rfl
  | ret =>
    have hsame : (s.withTimers d e).stack = s.stack := rfl
    simp only [exec, execReturn, hsame]
    cases s.stack <;> rfl
  | call nnn =>
    simp only [exec, execCall, apply_ite (mapNext _)]
    rfl
  | skipEqualX | skipNotEqualX | skipEqualXY | skipNotEqualXY => exact congrArg Host.Outcome.next (s.skipIf_withTimers d e _)
  | draw x y n => exact s.guardRange_withTimers d e (.draw x y n) n.val (s.afterDraw x y n)
  | binaryCodedDecimal x => exact s.guardRange_withTimers d e (.binaryCodedDecimal x) 3 (s.afterBcd x)
  | storeRegisters x =>
    simp only [exec, execStoreRegisters, State.storeRegs_withTimers]
    exact s.guardRange_withTimers d e _ _ _
  | readIntoRegisters x =>
    simp only [exec, execReadIntoRegisters, State.readRegs_withTimers]
    exact s.guardRange_withTimers d e _ _ _
  | jump | setRegister | addValueToRegister | load | or | and | xor | add | sub | subn | shiftRight | shiftLeft
    | setIndexRegister | addToIndex => rfl

theorem present_withTimers (addr opcode : Word) (answer : Option RenderError) :
    present addr opcode answer (s.withTimers d e) = (present addr opcode answer s).withTimers d e := by
  have hstatus : (s.withTimers d e).status = s.status := rfl
  have hchanged : (s.withTimers d e).changed = s.changed := rfl
  unfold present
  rw [hstatus, hchanged]
  split <;> rfl

theorem finish_withTimers (addr opcode : Word) (answer : Option RenderError) (r : Result) :
    finish addr opcode answer (mapNext (·.withTimers d e) r) = mapNext (·.withTimers d e) (finish addr opcode answer r) := by
  cases r with
  | next u => exact congrArg Host.Outcome.next (present_withTimers u d e addr opcode answer)
  | fault | refused => rfl

theorem cycle_withTimers (answer : Option RenderError) :
    cycle answer (s.withTimers d e) = mapNext (·.withTimers d e) (cycle answer s) := by
  have hcancel : (s.withTimers d e).cancel = s.cancel := rfl
  have hfetch : (s.withTimers d e).fetchWord = s.fetchWord := rfl
  have hadvance : (s.withTimers d e).advance = s.advance.withTimers d e := rfl
  have hcfg : (s.withTimers d e).cfg = s.cfg := rfl
  rw [cycle, cycle, hcancel, hfetch, hadvance, hcfg]
  by_cases hc : s.cancel = true
  · rw [if_pos hc, if_pos hc]
    rfl
  · rw [if_neg hc, if_neg hc]
    cases hf : s.fetchWord with
    | none => rfl
    | some w =>
      cases hd : decode s.cfg w with
      | illegal er => simp only [hd]; rfl
      | ok i =>
        simp only [hd, exec_withTimers]
        exact finish_withTimers d e _ _ _ _

/-- The boundary ticks the timers it finds, and does the same to everything else. -/
theorem State.boundary_withTimers : ∃ d' e', (s.withTimers d e).boundary = s.boundary.withTimers d' e' := by
  obtain ⟨a, b, h⟩ := State.ticks_frame s.move.ticks s
  obtain ⟨d', e', h'⟩ := State.ticks_frame s.move.ticks (s.withTimers d e)
  have hmove : (s.withTimers d e).move = s.move := rfl
  refine ⟨d', e', ?_⟩
  rw [State.boundary, State.boundary, hmove, h, h']
  rfl

end timers

/-- Settles O19: other timers commute with a cycle, once the boundary's ticks have landed. -/
theorem timersAreUnobservable : Obligations.TimersAreUnobservable := by
  unfold Obligations.TimersAreUnobservable
  intro s t d e h
  have hs := status_of_step_next h
  obtain ⟨d', e', hb⟩ := s.boundary_withTimers d e
  have hcycle : ∀ r : State, r.status = .running → step r = cycle r.move.render r.boundary := fun r hr => by
    rw [step, stepState, hr]
  refine ⟨d', e', ?_⟩
  calc step (s.withTimers d e)
      = cycle s.move.render (s.withTimers d e).boundary := hcycle _ hs
    _ = mapNext (·.withTimers d' e') (step s) := by rw [hb, cycle_withTimers, hcycle s hs]
    _ = .next (t.withTimers d' e') := by rw [h]; rfl

end Sys2Proof.Machine

/-! PROOFS, 10_state.md and 70_reset_and_hazards.md: reset, the load of an image, and the invariant `State.Inv`. Each part of the
invariant is kept by `exec`; the render phase restores the one that an instruction may break, changed. -/

namespace Sys2Proof.Machine

/-! ### Reset and the load of an image -/

/-- Settles O25: the cells hold their content before the load (rule R52), and the rest is the definition of reset. -/
theorem resetValues : Obligations.ResetValues := by
  unfold Obligations.ResetValues
  have hv : ∀ x, State.reset.reg x = 0x00 := fun x => Vector.getElem_replicate ..
  have hfont : ∀ k : Nat, ∀ h : k < 80, State.reset.peek (0x050 + k) = State.reset.cfg.fontGlyphs[k] :=
    fun k hk => resetByte_font constructionConfig hk
  have hzero : ∀ a, a < 0x050 ∨ 0x09F < a → State.reset.peek a = 0x00 := fun a ha =>
    resetByte_other constructionConfig ha
  exact ⟨hv, rfl, rfl, rfl, rfl, rfl, FrameBuffer.pixel_blank, rfl, rfl, rfl, hfont, hzero, rfl, rfl, rfl, rfl, rfl, rfl, rfl,
    rfl, rfl, rfl, rfl⟩

/-- An image within MAX_IMAGE for which memory has room is loaded. -/
theorem State.boot_of_fits {cfg : Config} {image : List Byte} (hmax : image.length ≤ cfg.maxImage)
    (hroom : image.length ≤ cfg.memSize - cfg.programBase.toNat) :
    State.boot cfg image = (State.initial cfg).loadImage cfg.programBase.toNat image :=
  if_neg (Nat.not_lt.2 (Nat.le_min.2 ⟨hmax, hroom⟩))

/-- Settles O26: the load writes memory alone, the image's bytes over the content before it. -/
theorem imageIsLoadedVerbatim : Obligations.ImageIsLoadedVerbatim := by
  unfold Obligations.ImageIsLoadedVerbatim
  intro cfg image hmax hroom base font
  rw [State.boot_of_fits hmax hroom]
  have hoff : ∀ a, a < base ∨ base + image.length ≤ a →
      ((State.initial cfg).loadImage base image).peek a = resetByte cfg a := fun a ha => by
    rw [State.peek_loadImage, dif_neg (by omega), State.peek_initial]
  refine ⟨fun k hk => ?_, fun k hk ha => ?_, fun a ha hfont => ?_, ?_⟩
  · rw [State.peek_loadImage, dif_pos ⟨Nat.le_add_right .., Nat.add_lt_add_left hk _⟩]
    simp only [base, Nat.add_sub_cancel_left]
  · rw [hoff _ ha]
    exact resetByte_font cfg hk
  · rw [hoff _ ha]
    exact resetByte_other cfg hfont
  · obtain ⟨m, hm⟩ := (State.initial cfg).loadImage_frame base image
    rw [hm]
    rfl

/-! ### The invariant at reset -/

theorem State.Inv.initial (cfg : Config) : (State.initial cfg).Inv where
  mem_wf := ⟨List.Pairwise.nil, nofun⟩
  fb_wf := FrameBuffer.wf_blank ..
  frames_wf := nofun
  pc_le := le_trans (Nat.le_max_right ..) (Nat.le_max_right ..)
  stack_le := nofun
  stack_cap := fun c _ => Nat.zero_le c
  i_le := fun _ => Nat.zero_le _
  not_changed := fun _ => rfl

/-- Settles O23: the empty load. -/
theorem resetMeetsInvariant : Obligations.ResetMeetsInvariant := State.Inv.initial constructionConfig

section keep

variable {s : State}

/-- A run status without a next cycle asks nothing of changed. -/
theorem State.Inv.withStatus (h : s.Inv) {r : RunStatus} (hr : r ≠ .running) : State.Inv { s with status := r } where
  mem_wf := h.mem_wf
  fb_wf := h.fb_wf
  frames_wf := h.frames_wf
  pc_le := h.pc_le
  stack_le := h.stack_le
  stack_cap := h.stack_cap
  i_le := h.i_le
  not_changed := fun hrun => absurd hrun hr

theorem State.Inv.raise (h : s.Inv) (f : Fatal) : (s.raise f).Inv := h.withStatus nofun

theorem State.Inv.loadImage (h : s.Inv) {a : Nat} {image : List Byte} (ha : a + image.length ≤ s.cfg.memSize) :
    (s.loadImage a image).Inv := by
  have hm := s.wf_loadImage a image h.mem_wf ha
  obtain ⟨m, hframe⟩ := s.loadImage_frame a image
  rw [hframe] at hm ⊢
  exact { h with mem_wf := hm }

end keep

/-- Settles O24: an image is loaded only where memory has room for it, and an empty one writes nothing. -/
theorem bootMeetsInvariant : Obligations.BootMeetsInvariant := by
  unfold Obligations.BootMeetsInvariant
  intro cfg image
  unfold State.boot
  split
  · exact (State.Inv.initial cfg).raise _
  · next hfit =>
    have hroom : image.length ≤ cfg.memSize - cfg.programBase.toNat := (Nat.le_min.1 (Nat.not_lt.1 hfit)).2
    cases image with
    | nil => exact State.Inv.initial cfg
    | cons b bs =>
      have hlen : (b :: bs).length = bs.length + 1 := rfl
      exact (State.Inv.initial cfg).loadImage (show cfg.programBase.toNat + (b :: bs).length ≤ cfg.memSize by omega)

/-! ### Each part of the invariant in an instruction -/

theorem zextAddr_toNat_le (nnn : Addr12) : (zextAddr nnn).toNat ≤ 0xFFF := by
  have hlt := nnn.isLt
  rw [zextAddr, BitVec.toNat_setWidth_of_le (by decide)]
  omega

section exec

variable {i : Instr} {s t : State} (h : exec i s = .next t)
include h

theorem exec_mem_wf (hm : Memory.wf (resetByte s.cfg) s.cfg.memSize s.mem) :
    Memory.wf (resetByte s.cfg) s.cfg.memSize t.mem := by
  cases i with
  | binaryCodedDecimal x =>
    rcases exec_cases (.binaryCodedDecimal x) s with ⟨f, h'⟩ | ⟨hin, h'⟩ <;> cases h.symm.trans h'
    · exact hm
    · have hin := (State.firstOutOfRange_eq_none.1 hin).resolve_left (by decide)
      exact Memory.wf_write _ (Memory.wf_write _ (Memory.wf_write _ hm (by omega)) (by omega)) (by omega)
  | storeRegisters x =>
    rcases exec_cases (.storeRegisters x) s with ⟨f, h'⟩ | ⟨hin, h'⟩ <;> cases h.symm.trans h'
    · exact hm
    · exact s.wf_storeRegs hm ((State.firstOutOfRange_eq_none.1 hin).resolve_left (Nat.succ_ne_zero _))
  | _ =>
    rw [(exec_frame h).mem rfl]
    exact hm

theorem exec_fb_wf (hfb : FrameBuffer.wf s.cfg.screenW s.cfg.screenH s.fb) :
    FrameBuffer.wf s.cfg.screenW s.cfg.screenH t.fb := by
  cases i with
  | clearScreen =>
    cases h
    split <;> exact FrameBuffer.wf_blank ..
  | draw x y n =>
    rcases exec_cases (.draw x y n) s with ⟨f, h'⟩ | ⟨-, h'⟩ <;> cases h.symm.trans h'
    · exact hfb
    · exact s.wf_drawn x y n hfb
  | _ =>
    rw [(exec_frame h).fb nofun]
    exact hfb

/-- pc comes from the fetch advance, a 12-bit target, a skip or a return address. -/
theorem exec_pc_le (hpc : s.pc.toNat ≤ s.cfg.memSize) (hstack : ∀ r ∈ s.stack, r.toNat ≤ s.cfg.memSize) :
    t.pc.toNat ≤ Config.pcMax s.cfg := by
  have htarget : ∀ nnn, (zextAddr nnn).toNat ≤ Config.pcMax s.cfg := fun nnn =>
    le_trans (zextAddr_toNat_le nnn) (le_trans (Nat.le_max_left ..) (Nat.le_max_right ..))
  have hcells : ∀ n, n ≤ s.cfg.memSize + 2 → n ≤ Config.pcMax s.cfg := fun n hn => le_trans hn (Nat.le_max_left ..)
  have hskip : (s.pc + 2).toNat ≤ s.pc.toNat + 2 := by
    rw [add_two_eq_ofNat, BitVec.toNat_ofNat]
    exact Nat.mod_le ..
  cases i with
  | jump nnn =>
    cases h
    exact htarget nnn
  | call nnn =>
    rcases execCall_cases nnn s with ⟨-, h'⟩ | ⟨-, h'⟩ <;> cases h.symm.trans h'
    · exact htarget nnn
    · exact hcells _ (by rw [State.raise_pc]; omega)
  | ret =>
    rcases execReturn_cases s with ⟨a, rest, hs, h'⟩ | ⟨-, h'⟩ <;> cases h.symm.trans h'
    · have ha := hstack a (hs ▸ List.mem_cons_self)
      exact hcells _ (by simp only; omega)
    · exact hcells _ (by rw [State.raise_pc]; omega)
  | skipEqualX | skipNotEqualX | skipEqualXY | skipNotEqualXY =>
    cases h
    rw [State.skipIf_eq, State.goto_pc]
    split <;> exact hcells _ (by omega)
  | _ =>
    rw [(exec_frame h).pc nofun]
    exact hcells _ (by omega)

/-- A return address is a pc that a Call pushes, and a Call at STACK_CAP pushes none. -/
theorem exec_stack_le (hpc : s.pc.toNat ≤ s.cfg.memSize) (hstack : ∀ r ∈ s.stack, r.toNat ≤ s.cfg.memSize)
    (hcap : ∀ c, s.cfg.stackCap = some c → s.stack.length ≤ c) :
    (∀ r ∈ t.stack, r.toNat ≤ s.cfg.memSize) ∧ ∀ c, s.cfg.stackCap = some c → t.stack.length ≤ c := by
  cases i with
  | call nnn =>
    rcases execCall_cases nnn s with ⟨hlen, h'⟩ | ⟨-, h'⟩ <;> cases h.symm.trans h'
    · refine ⟨fun r hr => ?_, fun c hc => ?_⟩
      · rcases List.mem_cons.1 hr with rfl | hr
        · exact hpc
        · exact hstack r hr
      · have hne : s.stack.length ≠ c := fun e => hlen (e ▸ hc)
        exact Nat.lt_of_le_of_ne (hcap c hc) hne
    · exact ⟨hstack, hcap⟩
  | ret =>
    rcases execReturn_cases s with ⟨a, rest, hs, h'⟩ | ⟨-, h'⟩ <;> cases h.symm.trans h'
    · rw [hs] at hstack hcap
      exact ⟨fun r hr => hstack r (List.mem_cons_of_mem a hr), fun c hc => Nat.le_of_succ_le (hcap c hc)⟩
    · exact ⟨hstack, hcap⟩
  | _ =>
    rw [(exec_frame h).stack nofun nofun]
    exact ⟨hstack, hcap⟩

theorem exec_i_le (hwf : i.wellFormed s.cfg = true) (hi : s.cfg.hasAddToIndex = false → s.i.toNat ≤ 0xFFF) :
    s.cfg.hasAddToIndex = false → t.i.toNat ≤ 0xFFF := by
  cases i with
  | setIndexRegister nnn =>
    cases h
    exact fun _ => zextAddr_toNat_le nnn
  | addToIndex x => exact fun hadd => absurd (hadd.symm.trans hwf) (by decide)
  | _ =>
    rw [(exec_frame h).index nofun nofun]
    exact hi

/-- Between the fetch and the render phase an instruction of the machine keeps all but the part about changed. -/
theorem exec_keeps_inv (hs : s.Inv) (hwf : i.wellFormed s.cfg = true) (hpc : s.pc.toNat ≤ s.cfg.memSize) :
    (t.setChanged false).Inv := by
  have hu := exec_untouched h
  obtain ⟨hstack, hcap⟩ := exec_stack_le h hpc hs.stack_le hs.stack_cap
  refine ⟨?_, ?_, ?_, ?_, ?_, ?_, ?_, fun _ => rfl⟩ <;>
    simp only [State.setChanged_mem, State.setChanged_fb, State.setChanged_frames, State.setChanged_pc, State.setChanged_stack,
      State.setChanged_i, State.setChanged_cfg, hu.cfg, hu.frames]
  · exact exec_mem_wf h hs.mem_wf
  · exact exec_fb_wf h hs.fb_wf
  · exact hs.frames_wf
  · exact exec_pc_le h hpc hs.stack_le
  · exact hstack
  · exact hcap
  · exact exec_i_le h hwf hs.i_le

end exec

/-! ### The invariant in the phases of a cycle -/

theorem State.Inv.boundary {s : State} (h : s.Inv) : s.boundary.Inv where
  mem_wf := by simpa using h.mem_wf
  fb_wf := by simpa using h.fb_wf
  frames_wf := by simpa using h.frames_wf
  pc_le := by simpa using h.pc_le
  stack_le := by simpa using h.stack_le
  stack_cap := by simpa using h.stack_cap
  i_le := by simpa using h.i_le
  not_changed := by simpa using h.not_changed

/-- A fetch leaves pc at most one past the last cell. -/
theorem State.advance_pc_le_of_fetch {s : State} {w : Word} (hf : s.fetchWord = some w) :
    s.advance.pc.toNat ≤ s.cfg.memSize := by
  have hin := (State.fetchWord_eq_some_iff.1 hf).1
  have hmod := Nat.mod_le (s.pc.toNat + 2) (2 ^ 16)
  rw [State.advance_pc, add_two_eq_ofNat, BitVec.toNat_ofNat]
  omega

theorem State.Inv.advance {s : State} (h : s.Inv) (hpc : s.advance.pc.toNat ≤ s.cfg.memSize) : s.advance.Inv :=
  { h with pc_le := le_trans hpc (le_trans (Nat.le_add_right _ 2) (Nat.le_max_left ..)) }

/-- The render phase clears changed, or the engine does not run on. -/
theorem present_inv {u : State} (h : (u.setChanged false).Inv) (addr opcode : Word) (answer : Option RenderError) :
    (present addr opcode answer u).Inv := by
  have hframes : ∀ f ∈ u.frames ++ [u.fb], FrameBuffer.wf u.cfg.screenW u.cfg.screenH f := fun f hf => by
    rcases List.mem_append.1 hf with hf | hf
    · exact h.frames_wf f hf
    · cases List.mem_singleton.1 hf
      exact h.fb_wf
  rcases present_cases addr opcode answer u with ⟨hno, hp⟩ | ⟨-, -, -, hp⟩ | ⟨e, -, -, -, hp⟩ <;> rw [hp]
  · exact { h with not_changed := fun hrun => Bool.eq_false_iff.2 fun hc => hno ⟨hrun, hc⟩ }
  · exact { h with frames_wf := hframes, not_changed := fun _ => rfl }
  · exact { h with frames_wf := hframes, not_changed := nofun }

/-- Settles O22: the boundary and the fetch keep the invariant, a fatal condition or a cancellation writes the run status alone,
and an instruction keeps all but the part about changed, which the render phase restores. -/
theorem stepKeepsInvariant : Obligations.StepKeepsInvariant := by
  unfold Obligations.StepKeepsInvariant
  intro s t hs h
  have hb := hs.boundary
  rcases step_cases (status_of_step_next h) with
    ⟨-, hstep⟩ | ⟨-, -, hstep⟩ | ⟨w, e, -, hf, -, hstep⟩ | ⟨w, i, u, -, hf, hd, hu, hstep⟩ <;> cases hstep.symm.trans h
  · exact hb.withStatus nofun
  · exact hb.raise _
  · have hpc := State.advance_pc_le_of_fetch (s.fetchWord_boundary.trans hf)
    exact (hb.advance hpc).raise _
  · have hpc := State.advance_pc_le_of_fetch (s.fetchWord_boundary.trans hf)
    have hwf : i.wellFormed s.boundary.advance.cfg = true := by
      rw [State.advance_cfg, State.boundary_cfg]
      exact wellFormed_of_decode hd
    exact present_inv (exec_keeps_inv hu (hb.advance hpc) hwf hpc) ..

end Sys2Proof.Machine

/-! PROOFS, 40_display.md: ClearScreen and Draw, from the closed form of a sprite (Laws/Display.lean). -/

namespace Sys2Proof.Machine

/-- Settles O28: the blank frame has no lit pixel, and changed is set under CLS_SETS_CHANGED alone. -/
theorem clearScreenBlanksTheFrame : Obligations.ClearScreenBlanksTheFrame := by
  unfold Obligations.ClearScreenBlanksTheFrame
  refine ⟨fun cfg => rfl, fun s => ⟨FrameBuffer.blank, FrameBuffer.pixel_blank, ?_⟩⟩
  rw [exec, execClearScreen]
  cases s.cfg.clsSetsChanged <;> rfl

/-- Draw with every row address in memory, or no row. -/
theorem exec_draw_in {s : State} (x y : Reg) {n : Height} (hin : n.val = 0 ∨ s.i.toNat + n.val ≤ s.cfg.memSize) :
    exec (.draw x y n) s = .next (s.afterDraw x y n) :=
  s.guardRange_in _ _ hin

theorem flagByte_eq_one_iff (b : Bool) : flagByte b = 0x01 ↔ b = true := by
  cases b <;> decide

/-- Settles O29: the pixels and the collision of a sprite in closed form. -/
theorem drawXorsTheSprite : Obligations.DrawXorsTheSprite := by
  unfold Obligations.DrawXorsTheSprite
  intro s x y n hin
  refine ⟨?_, (s.drawn x y n).fb, flagByte (s.drawn x y n).collision, exec_draw_in x y hin, fun px py => ?_,
    (flagByte_eq _).symm, (flagByte_eq_one_iff _).trans (s.collision_drawn x y n)⟩
  · rw [← BitVec.ofFin_eq_ofNat, wordXYN_eq_encXYN 0xD#4 x y _ (by decide)]
    exact decode_draw ..
  · rw [State.pixel_drawn]
    split
    · next hon => rw [decide_eq_true hon, Bool.true_and]
    · next hoff => rw [decide_eq_false hoff, Bool.false_and, Bool.xor_false]

/-! ### Two Draws -/

/-- The sprite's bits depend on the origin registers, on I, on memory and on the parameters. -/
theorem State.spriteBit_afterDraw {s : State} {x y : Reg} {n : Height} (hx : (s.afterDraw x y n).reg x = s.reg x)
    (hy : (s.afterDraw x y n).reg y = s.reg y) (px py : Nat) :
    (s.afterDraw x y n).spriteBit x y n px py = s.spriteBit x y n px py := by
  have hox : (s.afterDraw x y n).originX x = s.originX x := congrArg (fun b : Byte => b.toNat % s.cfg.screenW) hx
  have hoy : (s.afterDraw x y n).originY y = s.originY y := congrArg (fun b : Byte => b.toNat % s.cfg.screenH) hy
  have hrow : ∀ r, (s.afterDraw x y n).spriteRow r = s.spriteRow r := fun r => rfl
  rw [State.spriteBit, State.spriteBit, hox, hoy, hrow]

/-- Settles O30: XORing the same bits twice gives the pixels back, and the second Draw collides where the first lit a pixel. -/
theorem drawTwiceRestores : Obligations.DrawTwiceRestores := by
  unfold Obligations.DrawTwiceRestores
  intro s t x y n hin h hx hy
  cases h.symm.trans (exec_draw_in x y hin)
  have hbit := State.spriteBit_afterDraw hx hy
  have hfb : (s.afterDraw x y n).fb = (s.drawn x y n).fb := rfl
  have hcfg : (s.afterDraw x y n).cfg = s.cfg := rfl
  have hpixel : ∀ px py, ((s.afterDraw x y n).drawn x y n).fb.pixel px py = s.fb.pixel px py := fun px py => by
    rw [State.pixel_drawn, hfb, State.pixel_drawn, hbit, hcfg, Bool.xor_assoc, Bool.xor_self, Bool.xor_false]
  refine ⟨_, exec_draw_in (s := s.afterDraw x y n) x y hin, hpixel, fun hwf => ?_, ?_⟩
  · have hwf' := (s.afterDraw x y n).wf_drawn x y n (s.wf_drawn x y n hwf)
    exact FrameBuffer.ext_pixel hwf'.1 hwf.1 hpixel
  · have hflag : ((s.afterDraw x y n).afterDraw x y n).reg 15 = flagByte ((s.afterDraw x y n).drawn x y n).collision :=
      State.reg_setFlag_15 ..
    rw [hflag, flagByte_eq_one_iff, State.collision_drawn]
    refine exists_congr fun px => exists_congr fun py => and_congr_right fun hpx => and_congr_right fun hpy => ?_
    rw [hbit, hfb, State.pixel_drawn, decide_eq_true (show px < s.cfg.screenW ∧ py < s.cfg.screenH from ⟨hpx, hpy⟩)]
    refine and_congr_right fun hb => ?_
    rw [hb, Bool.true_and, Bool.xor_true, Bool.not_eq_true']

end Sys2Proof.Machine

/-! PROOFS, 41_control_flow.md rules R122 and R127, and 60_exceptions.md section 5: Call, Calls matched by Returns, and the
self-jump. -/

namespace Sys2Proof.Machine

/-! ### Call -/

theorem exec_call_of_ne {s : State} (a : Addr12) (h : s.cfg.stackCap ≠ some s.stack.length) :
    exec (.call a) s = .next ((s.push s.pc).goto (zextAddr a)) := by
  rcases execCall_cases a s with ⟨-, h'⟩ | ⟨h', -⟩
  · exact h'
  · exact absurd h' h

/-- Settles O34: 2NNN is the encoder's word, and `execCall` compares the depth with STACK_CAP. -/
theorem callPushesAndJumps : Obligations.CallPushesAndJumps := by
  unfold Obligations.CallPushesAndJumps
  intro s a
  rw [wordADDR_eq_encADDR 0x2#4 a (by decide), ← zextAddr_eq_ofNat]
  refine ⟨decode_call .., exec_call_of_ne a, fun hcap => ?_⟩
  rcases execCall_cases a s with ⟨hne, -⟩ | ⟨-, h⟩
  · exact absurd hcap hne
  · exact h

/-! ### Calls matched by Returns -/

/-- A run that ends running is continued by what follows it. -/
theorem execAll_append {is : List Instr} {s t : State} (js : List Instr) (h : execAll is s = .next t)
    (ht : t.status = .running) : execAll (is ++ js) s = execAll js t := by
  induction is generalizing s with
  | nil =>
    cases h
    rfl
  | cons i is ih =>
    obtain ⟨u, hu⟩ := exec_next i s
    rw [List.cons_append]
    simp only [execAll, hu] at h ⊢
    cases hs : u.status with
    | running =>
      simp only [hs] at h ⊢
      exact ih h
    | halted f =>
      simp only [hs] at h
      cases h
      cases hs.symm.trans ht
    | cancelled =>
      simp only [hs] at h
      cases h
      cases hs.symm.trans ht

/-- An instruction that leaves the engine running is followed by the rest of the run. -/
theorem execAll_cons {i : Instr} {s u : State} (is : List Instr) (hu : exec i s = .next u) (hs : u.status = .running) :
    execAll (i :: is) s = execAll is u := by
  simp only [execAll, hu, hs]

/-- Settles O37, by induction on the targets: the inner Calls and Returns restore the state after the first Call, whose entry the
last Return pops. -/
theorem callsThenReturnsRestore : Obligations.CallsThenReturnsRestore := by
  unfold Obligations.CallsThenReturnsRestore
  intro s targets hs hcap
  induction targets generalizing s with
  | nil => rfl
  | cons a as ih =>
    have hcall := exec_call_of_ne a (s := s) (by rw [hcap]; nofun)
    have hinner := ih ((s.push s.pc).goto (zextAddr a)) hs hcap
    have hret : exec .ret ((s.push s.pc).goto (zextAddr a)) = .next s := exec_ret_of_cons rfl
    rw [List.map_cons, List.length_cons, List.replicate_succ', List.cons_append, ← List.append_assoc]
    calc execAll (.call a :: (as.map .call ++ List.replicate as.length .ret ++ [.ret])) s
        = execAll (as.map .call ++ List.replicate as.length .ret ++ [.ret]) ((s.push s.pc).goto (zextAddr a)) :=
          execAll_cons _ hcall hs
      _ = execAll [.ret] ((s.push s.pc).goto (zextAddr a)) := execAll_append _ hinner hs
      _ = .next s := execAll_cons [] hret hs

/-! ### The self-jump (rule R219) -/

/-- The word of a jump to pc itself. -/
theorem decode_selfJump (cfg : Config) {pc : Word} (h : pc.toNat < 0x1000) :
    decode cfg (0x1000 ||| pc) = .ok (.jump (pc.setWidth 12)) ∧ zextAddr (pc.setWidth 12) = pc := by
  have hpc : zextAddr (pc.setWidth 12) = pc := by
    apply BitVec.eq_of_toNat_eq
    rw [zextAddr, BitVec.toNat_setWidth_of_le (by decide), BitVec.toNat_setWidth, Nat.mod_eq_of_lt h]
  have hword : 0x1000 ||| pc = wordADDR 0x1000 (pc.setWidth 12) := by
    rw [wordADDR, ← zextAddr, hpc]
  refine ⟨?_, hpc⟩
  rw [hword, wordADDR_eq_encADDR 0x1#4 _ (by decide), decode_jump]

/-- Settles O38: nothing lands at the boundary, the jump undoes the advance of pc, and nothing is rendered. -/
theorem selfJumpIsAFixedPoint : Obligations.SelfJumpIsAFixedPoint := by
  unfold Obligations.SelfJumpIsAFixedPoint
  rintro s hs hcancel henv hchanged ⟨hfetch, hpc⟩
  have hb := State.boundary_of_env_nil henv
  obtain ⟨hd, htarget⟩ := decode_selfJump s.cfg hpc
  have hc : (s.cancel || s.move.cancel) = false := by rw [← State.boundary_cancel, hb, hcancel]
  have hexec : exec (.jump (s.pc.setWidth 12)) s.boundary.advance = .next s := by
    rw [hb]
    exact congrArg (fun w => Host.Outcome.next (s.advance.goto w)) htarget
  rw [step_of_decode_ok hs hc hfetch hd hexec, (displayContract s _ _ hs).2.2 _ hchanged]

end Sys2Proof.Machine
